-- ==== Sys2Proof/Word.lean ====
section
/-! DEFINITION. The widths the spec gives values, and the pixel (00_scope.md R6, R8). -/

namespace Sys2Proof

/-- One byte of the input buffer, and one colour channel (`CHANNEL_W` = 8 bits, R6). -/
abbrev Byte := BitVec 8

/-- A width, a height, the magic and a register of the host window (`DIM_W`, R6; R28). -/
abbrev Word32 := BitVec 32

/-- An input byte offset (`ADDR_W`) or a pixel count (`COUNT_W`), both 64 bits (R6). -/
abbrev Word64 := BitVec 64

/-- A pixel is a 4-tuple `(r, g, b, a)` of 8-bit unsigned values (R8). -/
structure Pixel where
  r : Byte
  g : Byte
  b : Byte
  a : Byte
deriving DecidableEq, Repr

/-- `(0,0,0,0)`, what every colour-cache slot holds before anything writes it (R17). -/
abbrev Pixel.clear : Pixel := ⟨0, 0, 0, 0⟩

/-- `(0,0,0,255)`, the previous pixel before the first chunk (R16). -/
abbrev Pixel.opaqueBlack : Pixel := ⟨0, 0, 0, 255⟩

end Sys2Proof
end

