-- ==== Sys2Proof/Config.lean ====
section
/-! DEFINITION. The block's parameters (00_scope.md R6) and the values the spec leaves free. -/

namespace Sys2Proof

/-- The two values of the parameter `ZERO_DIM_POLICY` (R6, R83). -/
inductive ZeroDimPolicy where
  /-- A zero width or height is accepted and decodes zero pixels. -/
  | accept
  /-- A zero width or height raises `ZeroDimension`. -/
  | reject
deriving DecidableEq, Repr, Inhabited

namespace Config

/-- `ZERO_DIM_POLICY`, which the spec leaves OPEN (R6, R83, D8): no value of it can be proved, so a
claim about `step` holds for both. Log entry 2 (DESIGN CHOICE, safe). -/
opaque zeroDimPolicy : ZeroDimPolicy

/-- What the host's buffer `IN` holds at an offset nothing has placed a byte at: "any value"
(U11, R40). One free byte for each offset, the same at every read (R43). Log entry 1
(DESIGN CHOICE, safe). -/
opaque unplacedByte : Nat → Byte

/-- `HEADER_LEN` (R6). -/
abbrev headerLen : Nat := 14

/-- `RUN_MAX` (R6): the longest run one RUN chunk can give. -/
abbrev runMax : Nat := 62

/-- The magic `"qoif"` read big-endian, `0x716F6966` (R59, R79). The ASCII codes are the spec's own
general knowledge (GK2). Log entry 8 (PRESUMED, unsafe). -/
abbrev goodMagic : Word32 := 0x716F6966

/-- One past the last byte offset `IN` can have: it holds up to 2^64 - 1 bytes (R42). -/
abbrev inputOffsets : Nat := 2 ^ 64 - 1

end Config

end Sys2Proof
end

