-- ==== Sys2Proof/Machine/State.lean ====
section
/-! DEFINITION. All the state the spec gives the block (10_state.md R15 to R41, 20_memory.md R42 and
R46), the host's moves, and the reasons a step can stop. -/

namespace Sys2Proof.Machine

/-- `PHASE` (R22). -/
inductive Phase where
  /-- No decode call has started since reset. -/
  | idle
  /-- START was accepted and the header parse step is next. -/
  | header
  /-- The header is valid and pixels remain. -/
  | chunk
  /-- The call completed with exactly `NPIX` pixels. -/
  | done
  /-- The call failed with the error code in `ERR`. -/
  | error
deriving DecidableEq, Repr

/-- The block's errors (R119). Taking one is a next state, not a stop of the machine. -/
inductive FormatError where
  | badMagic
  | invalidChannels
  | invalidColorspace
  | truncated
  | overrun
  | zeroDimension
deriving DecidableEq, Repr

/-- Bytes placed at offsets, in one canonical form: offsets strictly rising, every one an offset `IN`
can have (see `Memory.wf` in Ops). An unlisted offset has NO listed byte, so no entry can equal what
an unlisted offset reads as. -/
structure Memory where
  cells : List Host.Cell
deriving DecidableEq, Repr

/-- A move of the host, each one atomic step (R11), or a turn it leaves to the decoder. -/
inductive HostMove where
  /-- Write a 32-bit value to a register of the window (R28). -/
  | writeReg (number : Nat) (value : Word32)
  /-- Read a register of the window (R28). -/
  | readReg (number : Nat)
  /-- Read element `k` of the output stream (R11, R46). -/
  | readOut (k : Nat)
  /-- Place bytes in the input buffer from an offset on (R42, R136). -/
  | placeInput (offset : Nat) (bytes : List Byte)
  /-- Assert hardware reset (R132). -/
  | reset
  /-- Make no move: the decoder takes one step, if it has one (R51). -/
  | wait
deriving DecidableEq, Repr

/-- What a read of the host has answered. -/
inductive HostReply where
  /-- The value of a register; none where the number does not select the block (R28). -/
  | reg (number : Nat) (value : Option Word32)
  /-- Element `k` of `OUT`; none where the call has not emitted it yet. -/
  | pixel (k : Nat) (value : Option Pixel)
deriving DecidableEq, Repr

/-- The state of the block (R41), with the host's buffer `IN` and, as the model's own fields, the
host's coming moves and the replies to its reads. -/
structure State where
  /-- `PREV` (R16). -/
  prev : Pixel
  /-- `CACHE[0..63]` (R17). -/
  cache : Vector Pixel 64
  /-- `RUN` (R18). -/
  run : BitVec 6
  /-- `POS` (R19, R24). -/
  pos : Word64
  /-- `NPIX` (R20). -/
  npix : Word64
  /-- `COUNT` (R21). -/
  count : Word64
  /-- `PHASE` (R22). -/
  phase : Phase
  /-- `ERR` (R23). -/
  err : BitVec 4
  /-- `MAGIC` (R25). -/
  magic : Word32
  /-- `WIDTH` (R25). -/
  width : Word32
  /-- `HEIGHT` (R25). -/
  height : Word32
  /-- `CHANNELS` (R25). -/
  channels : Byte
  /-- `COLORSPACE` (R25). -/
  colorspace : Byte
  /-- `HDR_VALID` (R25). -/
  hdrValid : Bool
  /-- `IN_LEN` (R31). -/
  inLen : Word64
  /-- `IN` (R42): the bytes the host has placed. -/
  inBuf : Memory
  /-- `OUT` (R46), in emission order. -/
  out : List Pixel
  /-- The MODEL's own field: the host's coming moves, the next one first (log entry 3). -/
  moves : List HostMove
  /-- The MODEL's own field: what the host's reads have answered, the oldest first (log entry 3). -/
  replies : List HostReply
deriving DecidableEq, Repr

/-- Why the machine stops. No chunk's meaning ends in one. -/
inductive Fault where
  /-- Raised by `decoderStep` in phases IDLE, DONE and ERROR when the host has no move left: there
  "IDLE, DONE, ERROR -> no step" (R89), so no agent can step. Safe: the machine stops where the
  hardware stays as it is. Log entry 4. -/
  | noStep
  /-- Raised by `placeInput` when a byte would go to an offset `IN` cannot have: it "holds up to
  2^64 - 1 bytes" (R42). Safe: no such move exists. Log entry 6. -/
  | noSuchInputOffset
deriving DecidableEq, Repr

/-- Why the model gives a step no meaning. -/
inductive Refusal where
  /-- Raised by an arm of `exec` for an instruction without a meaning; no arm does so now. Safe. -/
  | notModelled (mnemonic : String)
  /-- Raised by `placeInput` while a decode call is in progress: "the model has no such move, and
  nothing is claimed of a run that makes it" (U5, R137). Unsafe as the spec says: hardware could read
  a mix of old and new bytes. Log entry 5. -/
  | inputWriteWhileBusy
deriving DecidableEq, Repr

/-- What a step answers. -/
abbrev Result := Host.Outcome State Fault Refusal

/-- The machine right after a hardware reset (R40). `IN` is not touched by a reset and its contents
are unspecified (R40, U11): nothing is listed. The host has no move and has read nothing (log
entry 3). -/
def State.reset : State where
  prev := Pixel.opaqueBlack
  cache := Vector.replicate 64 Pixel.clear
  run := 0
  pos := 0
  npix := 0
  count := 0
  phase := .idle
  err := 0
  magic := 0
  width := 0
  height := 0
  channels := 0
  colorspace := 0
  hdrValid := false
  inLen := 0
  inBuf := ⟨[]⟩
  out := []
  moves := []
  replies := []

end Sys2Proof.Machine
end

