-- ==== Sys2Proof/Machine/Flags.lean ====
section
/-! DEFINITION. The block's only flags, the status fields (10_state.md R27): `PHASE`, `ERR` and
`HDR_VALID`, their codes, and the `STATUS` word the host reads (R30). No chunk computes an arithmetic
flag. -/

namespace Sys2Proof.Machine

/-- The code of an error (R119). -/
def FormatError.code : FormatError → BitVec 4
  | .badMagic => 1
  | .invalidChannels => 2
  | .invalidColorspace => 3
  | .truncated => 4
  | .overrun => 5
  | .zeroDimension => 6

/-- `PHASE_V` (R30): IDLE 0, BUSY 1, DONE 2, ERROR 3. -/
def Phase.visible : Phase → BitVec 2
  | .idle => 0b00
  | .header => 0b01
  | .chunk => 0b01
  | .done => 0b10
  | .error => 0b11

/-- Whether a decode call is in progress: `PHASE ∈ {HEADER, CHUNK}` (R29, R31). -/
def Phase.busy : Phase → Bool
  | .idle => false
  | .header => true
  | .chunk => true
  | .done => false
  | .error => false

/-- `STATUS` (R30): bits 31:9 are 0, bit 8 is `HDR_VALID`, bits 7:4 are `ERR`, bits 3:2 are 0 and
bits 1:0 are `PHASE_V`. -/
def statusWord (s : State) : Word32 :=
  (0 : BitVec 23) ++ BitVec.ofBool s.hdrValid ++ s.err ++ (0 : BitVec 2) ++ s.phase.visible

end Sys2Proof.Machine
end

