-- ==== Sys2Proof/Machine/Ops.lean ====
section
/-! DEFINITION. The operations the steps share: the input buffer (20_memory.md R42 to R45), the colour
cache (43_index_cache.md R104 to R106), `Emit` and the common update (41_chunk_dispatch.md R93, R94),
taking an error (00_scope.md R10), and the two ways out of one, START and reset (70 R132 to R134). -/

namespace Sys2Proof.Machine

/-! ## The input buffer -/

/-- Offsets strictly rising, from `lo` on. -/
def risingFrom (lo : Nat) : List Host.Cell → Bool
  | [] => true
  | (a, _) :: rest => decide (lo ≤ a) && risingFrom (a + 1) rest

/-- The canonical form: offsets strictly rising, and each one an offset `IN` can have. -/
def Memory.wf (m : Memory) : Bool :=
  risingFrom 0 m.cells && m.cells.all fun c => decide (c.1 < Config.inputOffsets)

/-- The byte listed at an offset in a list of cells. -/
def lookupCell (a : Nat) : List Host.Cell → Option Byte
  | [] => none
  | (k, v) :: rest => if k = a then some v else lookupCell a rest

/-- Write one byte into a list of cells, keeping the offsets rising. -/
def insertCell (a : Nat) (v : Byte) : List Host.Cell → List Host.Cell
  | [] => [(a, v)]
  | (k, u) :: rest =>
    if a < k then (a, v) :: (k, u) :: rest
    else if a = k then (a, v) :: rest
    else (k, u) :: insertCell a v rest

/-- The byte listed at an offset, if any. -/
def Memory.read (m : Memory) (a : Nat) : Option Byte := lookupCell a m.cells

/-- Place one byte. -/
def Memory.write (m : Memory) (a : Nat) (v : Byte) : Memory := ⟨insertCell a v m.cells⟩

/-- Place bytes at rising offsets from `a` on. -/
def Memory.writeBytes (m : Memory) (a : Nat) : List Byte → Memory
  | [] => m
  | v :: rest => (m.write a v).writeBytes (a + 1) rest

/-- `IN[a]` (R43): the byte the host placed there, else the free byte of that offset (U11). -/
def inByte (s : State) (a : Nat) : Byte :=
  match s.inBuf.read a with
  | some v => v
  | none => Config.unplacedByte a

/-- `MemRead(addr, n)` (R43): the bytes at offsets `addr .. addr+n-1`. -/
def memRead (s : State) (addr : Nat) : Nat → List Byte
  | 0 => []
  | n + 1 => inByte s addr :: memRead s (addr + 1) n

/-- `BE32(addr)` (R45): `IN[addr]` is bits 31:24. -/
def be32 (s : State) (addr : Nat) : Word32 :=
  inByte s addr ++ inByte s (addr + 1) ++ inByte s (addr + 2) ++ inByte s (addr + 3)

/-! ## The colour cache -/

/-- `Hash(p)` (R104): the sum in full, then `mod 64`. -/
def pixelHash (p : Pixel) : Fin 64 :=
  Fin.ofNat 64 (p.r.toNat * 3 + p.g.toNat * 5 + p.b.toNat * 7 + p.a.toNat * 11)

/-- `CACHE[i]`, the read port (R107). -/
def cacheGet (s : State) (i : Fin 64) : Pixel := s.cache[i]

/-- `CACHE[Hash(p)] <- p`, the write port (R106). -/
def cachePut (p : Pixel) (s : State) : State :=
  { s with cache := s.cache.set (pixelHash p).val p (pixelHash p).isLt }

/-! ## Emitting a pixel -/

/-- `Emit(p)` (R93). -/
def emit (p : Pixel) (s : State) : State :=
  { s with
    out := s.out ++ [p]
    count := s.count + 1
    phase := if s.count + 1 = s.npix then .done else s.phase }

/-- The common update of R94 without its cache write: `PREV <- p; POS <- POS + Len; Emit(p)`. This is
all of it for INDEX (R107). -/
def advance (p : Pixel) (len : Nat) (s : State) : State :=
  emit p { s with prev := p, pos := s.pos + BitVec.ofNat 64 len }

/-- The common update of R94 for every kind but INDEX. -/
def finishChunk (p : Pixel) (len : Nat) (s : State) : State := advance p len (cachePut p s)

/-! ## Errors, START and reset -/

/-- `raise E` (R10, R118): the step writes only `ERR` and `PHASE`. -/
def raiseError (e : FormatError) (s : State) : State := { s with err := e.code, phase := .error }

/-- An accepted START (R134): every piece of decode state is initialised anew, `IN_LEN` and `IN` are
unchanged. With reset it is the only way out of `ERROR` (R130). -/
def startCall (s : State) : State :=
  { s with
    prev := Pixel.opaqueBlack
    cache := Vector.replicate 64 Pixel.clear
    run := 0
    pos := 0
    count := 0
    npix := 0
    magic := 0
    width := 0
    height := 0
    channels := 0
    colorspace := 0
    hdrValid := false
    err := 0
    out := []
    phase := .header }

/-- A hardware reset of a running machine (R132): every register takes its reset value and `OUT` is
emptied; `IN`, the host's buffer, is not touched (R133), nor is what is the host's own. -/
def hardwareReset (s : State) : State :=
  { State.reset with inBuf := s.inBuf, moves := s.moves, replies := s.replies }

/-! ## The output stream as the platform stores it -/

/-- Byte `j` of a stored element: `r`, `g`, `b`, `a` (R47). -/
def channelByte (p : Pixel) : Nat → Byte
  | 0 => p.r
  | 1 => p.g
  | 2 => p.b
  | _ => p.a

/-- The byte at offset `off` of `OUT` stored as bytes, if that element has been emitted (R47). -/
def outByte (s : State) (off : Nat) : Option Byte :=
  (s.out[off / 4]?).map fun p => channelByte p (off % 4)

end Sys2Proof.Machine
end

