-- ==== Sys2Proof/Machine/Operands.lean ====
section
/-! DEFINITION. The pixel each operand form gives: the delta adder and its two users
(44_delta_chunks.md R109 to R112) and the literals (42_literal_chunks.md R102, R103). The fields
themselves are taken apart once, in Decode (R61). -/

namespace Sys2Proof.Machine

/-- `u +8 d` (R8): `(u + d) mod 256`. -/
def addChannel (u : Byte) (d : Int) : Byte := BitVec.ofInt 8 ((u.toNat : Int) + d)

/-- `DeltaAdd` (R109): three independent lanes, alpha passed through. -/
def deltaAdd (q : Pixel) (dr dg db : Int) : Pixel :=
  ⟨addChannel q.r dr, addChannel q.g dg, addChannel q.b db, q.a⟩

/-- `DeltaDiff` (R110). -/
def deltaDiff (q : Pixel) (dr dg db : Int) : Pixel := deltaAdd q dr dg db

/-- `DeltaLuma` (R111): red and blue move by the green delta plus their own. -/
def deltaLuma (q : Pixel) (dg drdg dbdg : Int) : Pixel := deltaAdd q (dg + drdg) dg (dg + dbdg)

/-- The literal of RGB: the alpha is the previous pixel's (R102). -/
def literalRgb (q : Pixel) (r g b : Byte) : Pixel := ⟨r, g, b, q.a⟩

/-- The literal of RGBA: all four channels replaced (R103). -/
def literalRgba (r g b a : Byte) : Pixel := ⟨r, g, b, a⟩

/-- The remaining pixels, `NPIX - COUNT`, as an unbounded integer (R7, R13). -/
def remaining (s : State) : Int := (s.npix.toNat : Int) - (s.count.toNat : Int)

end Sys2Proof.Machine
end

