-- ==== Sys2Proof/Machine/Delta.lean ====
section
/-! DEFINITION. The delta chunks DIFF and LUMA (44_delta_chunks.md). -/

namespace Sys2Proof.Machine

/-- DIFF (R110): 1 byte; `p <- DeltaAdd(PREV, dr, dg, db)`, then the common update. -/
def execDiff (dr dg db : Int) (s : State) : Result :=
  .next (finishChunk (deltaDiff s.prev dr dg db) 1 s)

/-- LUMA (R111): 2 bytes; `p <- DeltaAdd(PREV, dg + dr_dg, dg, dg + db_dg)`, then the common
update. -/
def execLuma (dg drdg dbdg : Int) (s : State) : Result :=
  .next (finishChunk (deltaLuma s.prev dg drdg dbdg) 2 s)

end Sys2Proof.Machine
end

