-- ==== Sys2Proof/Machine/Index.lean ====
section
/-! DEFINITION. The colour-cache lookup, INDEX (43_index_cache.md). -/

namespace Sys2Proof.Machine

/-- INDEX (R107, R108): 1 byte; `p <- CACHE[i]`, then the common update with the cache write left
out. -/
def execIndex (i : Fin 64) (s : State) : Result := .next (advance (cacheGet s i) 1 s)

end Sys2Proof.Machine
end

