-- ==== Sys2Proof/Machine/Literal.lean ====
section
/-! DEFINITION. The literal chunks RGB and RGBA (42_literal_chunks.md). -/

namespace Sys2Proof.Machine

/-- RGB (R102): 4 bytes; `p <- (r, g, b, PREV.a)`, then the common update. -/
def execRgb (r g b : Byte) (s : State) : Result := .next (finishChunk (literalRgb s.prev r g b) 4 s)

/-- RGBA (R103): 5 bytes; `p <- (r, g, b, a)`, then the common update. -/
def execRgba (r g b a : Byte) (s : State) : Result := .next (finishChunk (literalRgba r g b a) 5 s)

end Sys2Proof.Machine
end

