-- ==== Sys2Proof/Machine/Run.lean ====
section
/-! DEFINITION. The run-length counter: RUN and the run continuation (45_run_chunk.md R113 to R117). -/

namespace Sys2Proof.Machine

/-- The run counter's load port (R113): `RUN <- n - 1`. -/
def loadRun (n : Nat) (s : State) : State := { s with run := BitVec.ofNat 6 (n - 1) }

/-- RUN (R114): 1 byte. A run longer than the remaining pixels raises `Overrun` and nothing of the
chunk is applied (R116); else `p <- PREV; RUN <- n - 1`, then the common update, whose cache write the
spec puts in this step (R117). -/
def execRun (n : Nat) (s : State) : Result :=
  if (n : Int) > remaining s then .next (raiseError .overrun s)
  else .next (finishChunk s.prev 1 (loadRun n s))

/-- The run continuation (R115): `RUN <- RUN - 1; Emit(PREV)`. It reads no input and leaves `POS`,
`PREV` and `CACHE` alone. -/
def runContinue (s : State) : State := emit s.prev { s with run := s.run - 1 }

end Sys2Proof.Machine
end

