-- ==== Sys2Proof/Syntax.lean ====
section
/-! DEFINITION. The six chunk kinds, the block's instructions (30_encoding.md R60, R69), and the
assembler's lines (R71 to R73). -/

namespace Sys2Proof

/-- A chunk, with its operands as R69 writes them: channel values as bytes, a slot number, and the
signed deltas and the run length AFTER their bias is removed (R61). One constructor for each row of
`opcode_table.json`. -/
inductive Instr where
  /-- `RGB r, g, b` (R102). -/
  | rgb (r g b : Byte)
  /-- `RGBA r, g, b, a` (R103). -/
  | rgba (r g b a : Byte)
  /-- `INDEX i` (R107). -/
  | index (i : Fin 64)
  /-- `DIFF dr, dg, db` (R110). -/
  | diff (dr dg db : Int)
  /-- `LUMA dg, dr_dg, db_dg` (R111). -/
  | luma (dg drdg dbdg : Int)
  /-- `RUN n` (R114). -/
  | run (n : Nat)
deriving DecidableEq, Repr

/-- The name of a chunk's kind (R63). -/
inductive Kind where
  | rgb | rgba | index | diff | luma | run
deriving DecidableEq, Repr

/-- The kind of a chunk. -/
def Instr.kind : Instr → Kind
  | .rgb _ _ _ => .rgb
  | .rgba _ _ _ _ => .rgba
  | .index _ => .index
  | .diff _ _ _ => .diff
  | .luma _ _ _ => .luma
  | .run _ => .run

/-- A line of the spec's assembly text (R69, R71 to R73). Operands are the numbers as written, so an
out-of-range one can be refused. -/
inductive AsmLine where
  /-- A mnemonic with its operands (R69). -/
  | chunk (kind : Kind) (operands : List Int)
  /-- `.qoi width, height, channels, colorspace` (R71). -/
  | qoi (width height channels colorspace : Int)
  /-- `.bytes v, ...` (R71). -/
  | bytes (values : List Int)
  /-- `.end` (R72). -/
  | endMarker
  /-- `REPEAT n` (R73). -/
  | repeatRun (n : Int)
deriving DecidableEq, Repr

end Sys2Proof
end

