-- ==== Sys2Proof/WellFormed.lean ====
section
/-! DEFINITION. The operand ranges of R69: "An operand outside its range is refused by the assembler.
It spells no chunk." RGB, RGBA and INDEX operands are in range by their types. -/

namespace Sys2Proof

/-- `lo ≤ v ≤ hi`, both ends legal. -/
def inRange (lo hi v : Int) : Bool := decide (lo ≤ v) && decide (v ≤ hi)

/-- Every operand lies in its range of R69. -/
def Instr.wellFormed : Instr → Bool
  | .rgb _ _ _ => true
  | .rgba _ _ _ _ => true
  | .index _ => true
  | .diff dr dg db => inRange (-2) 1 dr && inRange (-2) 1 dg && inRange (-2) 1 db
  | .luma dg drdg dbdg => inRange (-32) 31 dg && inRange (-8) 7 drdg && inRange (-8) 7 dbdg
  | .run n => decide (1 ≤ n) && decide (n ≤ Config.runMax)

end Sys2Proof
end

