-- ==== Sys2Proof/Decode.lean ====
section
/-! DEFINITION. Chunk decoding and encoding, from the formats of 30_encoding.md R60 to R64 and R70, and
the opcode table of R76. -/

namespace Sys2Proof

/-- `v[hi:lo]`: bits `hi` down to `lo` of a byte, as an unsigned number (R7). -/
def bits (v : Byte) (hi lo : Nat) : Nat := v.toNat / 2 ^ lo % 2 ^ (hi - lo + 1)

/-- `Kind(b0)` (R63): the two full-byte tags first, then the 2-bit tag. -/
def kindOf (b0 : Byte) : Kind :=
  if b0 = 0xFE then .rgb
  else if b0 = 0xFF then .rgba
  else if bits b0 7 6 = 0b00 then .index
  else if bits b0 7 6 = 0b01 then .diff
  else if bits b0 7 6 = 0b10 then .luma
  else .run

/-- `Len(b0)` (R62): the chunk's length in bytes, from its tag byte alone. -/
def chunkLen (b0 : Byte) : Nat :=
  if b0 = 0xFE then 4
  else if b0 = 0xFF then 5
  else if bits b0 7 6 = 0b10 then 2
  else 1

/-- One row of `opcode_table.json` (R76). -/
structure OpRow where
  kind : Kind
  mnemonic : String
  pattern : Byte
  mask : Byte
  length : Nat
  precedence : Nat
deriving DecidableEq, Repr

/-- The rows of `opcode_table.json`, in the order of their `precedence` (R76). -/
def opcodeTable : List OpRow :=
  [ ⟨.rgb, "RGB", 0xFE, 0xFF, 4, 1⟩,
    ⟨.rgba, "RGBA", 0xFF, 0xFF, 5, 2⟩,
    ⟨.index, "INDEX", 0x00, 0xC0, 1, 3⟩,
    ⟨.diff, "DIFF", 0x40, 0xC0, 1, 3⟩,
    ⟨.luma, "LUMA", 0x80, 0xC0, 2, 3⟩,
    ⟨.run, "RUN", 0xC0, 0xC0, 1, 3⟩ ]

/-- Whether a tag byte matches a row's `match` and `mask`. -/
def OpRow.covers (row : OpRow) (b0 : Byte) : Bool := b0 &&& row.mask == row.pattern

/-- The row a decoder built from the table takes: the first in precedence order that matches (R76). -/
def tableRow (b0 : Byte) : Option OpRow := opcodeTable.find? fun row => row.covers b0

/-- Why a byte string is no chunk (R74). No tag byte is itself illegal (R65). -/
inductive DecodeReject where
  /-- There is no tag byte. -/
  | noTagByte
  /-- The tag byte is there and some of its `Len(b0) - 1` payload bytes are not. -/
  | payloadCut
deriving DecidableEq, Repr

/-- The operands of `INDEX`, whose slot is `b0[5:0]` (R61). -/
def decodeIndex (b0 : Byte) : Instr := .index (Fin.ofNat 64 (bits b0 5 0))

/-- The operands of `DIFF`: `b0[5:4] - 2`, `b0[3:2] - 2`, `b0[1:0] - 2` (R61). The three field
positions are the spec's own general knowledge (GK1, D11). Log entry 7 (PRESUMED, unsafe). -/
def decodeDiff (b0 : Byte) : Instr :=
  .diff ((bits b0 5 4 : Int) - 2) ((bits b0 3 2 : Int) - 2) ((bits b0 1 0 : Int) - 2)

/-- The operands of `LUMA`: `b0[5:0] - 32`, `b1[7:4] - 8`, `b1[3:0] - 8` (R61). -/
def decodeLuma (b0 b1 : Byte) : Instr :=
  .luma ((bits b0 5 0 : Int) - 32) ((bits b1 7 4 : Int) - 8) ((bits b1 3 0 : Int) - 8)

/-- The operand of `RUN`: `b0[5:0] + 1` (R61). -/
def decodeRun (b0 : Byte) : Instr := .run (bits b0 5 0 + 1)

/-- Decode the chunk at the head of a byte string, and give the bytes after it (R60, R61, R63, R74).
Total: every byte string that starts with a whole chunk decodes. -/
def decode : List Byte → Except DecodeReject (Instr × List Byte)
  | [] => .error .noTagByte
  | b0 :: rest =>
    match kindOf b0 with
    | .rgb =>
      match rest with
      | r :: g :: b :: after => .ok (.rgb r g b, after)
      | _ => .error .payloadCut
    | .rgba =>
      match rest with
      | r :: g :: b :: a :: after => .ok (.rgba r g b a, after)
      | _ => .error .payloadCut
    | .index => .ok (decodeIndex b0, rest)
    | .diff => .ok (decodeDiff b0, rest)
    | .luma =>
      match rest with
      | b1 :: after => .ok (decodeLuma b0 b1, after)
      | _ => .error .payloadCut
    | .run => .ok (decodeRun b0, rest)

/-- The bytes of a chunk (R70). -/
def encode : Instr → List Byte
  | .rgb r g b => [0xFE, r, g, b]
  | .rgba r g b a => [0xFF, r, g, b, a]
  | .index i => [BitVec.ofNat 8 i.val]
  | .diff dr dg db => [BitVec.ofInt 8 (0x40 + (dr + 2) * 16 + (dg + 2) * 4 + (db + 2))]
  | .luma dg drdg dbdg =>
    [BitVec.ofInt 8 (0x80 + (dg + 32)), BitVec.ofInt 8 ((drdg + 8) * 16 + (dbdg + 8))]
  | .run n => [BitVec.ofInt 8 (0xC0 + ((n : Int) - 1))]

/-- The longest chunk, RGBA (R62). -/
def longestChunk : Nat := 5

/-- Byte `k` of a table word: bits `8k+7 .. 8k`, a bit at or above `nbits` being 0. -/
def tableByte (nbits w k : Nat) : Byte := BitVec.ofNat 8 (w % 2 ^ nbits / 2 ^ (8 * k))

/-- The table word laid out as the stream holds it, the first byte first, up to the longest chunk. -/
def tableBytes (nbits w : Nat) : List Byte :=
  [tableByte nbits w 0, tableByte nbits w 1, tableByte nbits w 2, tableByte nbits w 3,
    tableByte nbits w 4]

/-- The instruction the decoder reads from a table word. -/
def decodeTableWord (nbits w : Nat) : Option Instr :=
  match decode (tableBytes nbits w) with
  | .ok (i, _) => some i
  | .error _ => none

end Sys2Proof
end

