-- ==== Sys2Proof/Machine/Fetch.lean ====
section
/-! DEFINITION. Fetching the chunk at `POS`, with the bounds check of 41_chunk_dispatch.md R91. -/

namespace Sys2Proof.Machine

/-- The chunk at `POS`, or the error of R91. The sum `POS + Len(b0)` does not wrap. Decoding a chunk
all of whose bytes are present never fails (R100), so the last arm is not reached; a chunk without its
payload is `Truncated` (R74). -/
def fetch (s : State) : Except FormatError Instr :=
  if s.pos.toNat ≥ s.inLen.toNat then .error .truncated
  else if s.pos.toNat + chunkLen (inByte s s.pos.toNat) > s.inLen.toNat then .error .truncated
  else
    match decode (memRead s s.pos.toNat (chunkLen (inByte s s.pos.toNat))) with
    | .ok (i, _) => .ok i
    | .error _ => .error .truncated

end Sys2Proof.Machine
end

