-- ==== Sys2Proof/Machine/Header.lean ====
section
/-! DEFINITION. The header parse step (40_header_parser.md R77 to R88). -/

namespace Sys2Proof.Machine

/-- Write all the header registers at once, with `NPIX`, `POS` and `PHASE` (R85). The product is exact
in 64 bits (R20). -/
def latchHeader (m w h : Word32) (c cs : Byte) (s : State) : State :=
  { s with
    magic := m
    width := w
    height := h
    channels := c
    colorspace := cs
    hdrValid := true
    npix := BitVec.ofNat 64 (w.toNat * h.toNat)
    pos := BitVec.ofNat 64 Config.headerLen
    phase := if w.toNat * h.toNat = 0 then .done else .chunk }

/-- The first header error, in the order of R86, if there is one. No byte is read before the length
check has passed (R78). -/
def headerError (pol : ZeroDimPolicy) (s : State) : Option FormatError :=
  if s.inLen.toNat < Config.headerLen then some .truncated
  else if be32 s 0 ≠ Config.goodMagic then some .badMagic
  else if inByte s 12 ≠ 3 ∧ inByte s 12 ≠ 4 then some .invalidChannels
  else if inByte s 13 ≠ 0 ∧ inByte s 13 ≠ 1 then some .invalidColorspace
  else if be32 s 4 = 0 ∨ be32 s 8 = 0 then
    match pol with
    | .reject => some .zeroDimension
    | .accept => none
  else none

/-- `HeaderStep` (R77) under a value of `ZERO_DIM_POLICY`. -/
def headerStep (pol : ZeroDimPolicy) (s : State) : State :=
  match headerError pol s with
  | some e => raiseError e s
  | none => latchHeader (be32 s 0) (be32 s 4) (be32 s 8) (inByte s 12) (inByte s 13) s

end Sys2Proof.Machine
end

