-- ==== Sys2Proof/Machine/HostPort.lean ====
section
/-! DEFINITION. The host's side: the register window (10_state.md R28 to R37), the output reads
(00_scope.md R11), placing the file (70_reset_and_hazards.md R136, R137) and reset (R132). -/

namespace Sys2Proof.Machine

/-- What the host reads from a register of the window (R28 to R36); none where the number does not
select the block. A read changes nothing (R37). -/
def regValue (s : State) : Nat → Option Word32
  | 0 => some 0
  | 1 => some (statusWord s)
  | 2 => some (s.inLen.extractLsb' 0 32)
  | 3 => some (s.inLen.extractLsb' 32 32)
  | 4 => some s.magic
  | 5 => some s.width
  | 6 => some s.height
  | 7 => some (s.channels.setWidth 32)
  | 8 => some (s.colorspace.setWidth 32)
  | 9 => some (s.pos.extractLsb' 0 32)
  | 10 => some (s.pos.extractLsb' 32 32)
  | 11 => some (s.count.extractLsb' 0 32)
  | 12 => some (s.count.extractLsb' 32 32)
  | 13 => some 0
  | 14 => some 0
  | 15 => some 0
  | _ => none

/-- A write of `CTRL` (R29): bit 0 is START, accepted while no call is in progress (R134) and ignored
while one is (R135). -/
def writeCtrl (v : Word32) (s : State) : State :=
  if v.getLsbD 0 = true ∧ s.phase.busy = false then startCall s else s

/-- A write of `IN_LEN_LO` (R31), ignored while a call is in progress. -/
def writeLenLo (v : Word32) (s : State) : State :=
  if s.phase.busy = true then s else { s with inLen := s.inLen.extractLsb' 32 32 ++ v }

/-- A write of `IN_LEN_HI` (R31), ignored while a call is in progress. -/
def writeLenHi (v : Word32) (s : State) : State :=
  if s.phase.busy = true then s else { s with inLen := v ++ s.inLen.extractLsb' 0 32 }

/-- A host write of a register (R28, R29, R31). Read-only and reserved registers, and numbers that do
not select the block, ignore it (R36, R37). -/
def writeRegister (number : Nat) (v : Word32) (s : State) : State :=
  match number with
  | 0 => writeCtrl v s
  | 2 => writeLenLo v s
  | 3 => writeLenHi v s
  | _ => s

/-- The host learns a value. -/
def reply (r : HostReply) (s : State) : State := { s with replies := s.replies ++ [r] }

/-- The host places bytes in `IN` from an offset on (R42, R136). While a call is in progress the model
has no such move (R137, U5). -/
def placeInput (offset : Nat) (bytes : List Byte) (s : State) : Result :=
  if s.phase.busy = true then .refused .inputWriteWhileBusy
  else if offset + bytes.length > Config.inputOffsets then .fault .noSuchInputOffset
  else .next { s with inBuf := s.inBuf.writeBytes offset bytes }

/-- One move of the host. `wait` is the decoder's turn and is taken in Step. -/
def hostMove (m : HostMove) (s : State) : Result :=
  match m with
  | .writeReg n v => .next (writeRegister n v s)
  | .readReg n => .next (reply (.reg n (regValue s n)) s)
  | .readOut k => .next (reply (.pixel k (s.out[k]?)) s)
  | .placeInput offset bytes => placeInput offset bytes s
  | .reset => .next (hardwareReset s)
  | .wait => .next s

end Sys2Proof.Machine
end

