-- ==== Sys2Proof/Machine/Step.lean ====
section
/-! DEFINITION. One step of the machine: the decoder's step (41_chunk_dispatch.md R89 to R95) or the
host's next move (00_scope.md R5, R11; 20_memory.md R51). -/

namespace Sys2Proof.Machine

/-- `ChunkStep` (R95): a run continuation while `RUN ≠ 0` (R90), else the chunk at `POS`. -/
def chunkStep (s : State) : Result :=
  if s.run ≠ 0 then .next (runContinue s)
  else
    match fetch s with
    | .error e => .next (raiseError e s)
    | .ok i => exec i s

/-- `DecoderStep` (R89). In IDLE, DONE and ERROR the decoder has no step. -/
def decoderStep (pol : ZeroDimPolicy) (s : State) : Result :=
  match s.phase with
  | .header => .next (headerStep pol s)
  | .chunk => chunkStep s
  | .idle => .fault .noStep
  | .done => .fault .noStep
  | .error => .fault .noStep

/-- The decoder's turn when the host waits: its step if it has one, else nothing happens (R89). -/
def decoderTurn (pol : ZeroDimPolicy) (s : State) : Result :=
  if s.phase.busy = true then decoderStep pol s else .next s

/-- The host's move `m`, the decoder's turn where it waits. -/
def takeMove (pol : ZeroDimPolicy) (m : HostMove) (s : State) : Result :=
  match m with
  | .wait => decoderTurn pol s
  | m => hostMove m s

/-- One step under a value of `ZERO_DIM_POLICY`: the host's next move, which leaves the list, or, when
it has none left, the decoder's step. -/
def stepWith (pol : ZeroDimPolicy) (s : State) : Result :=
  match s.moves with
  | [] => decoderStep pol s
  | m :: later => takeMove pol m { s with moves := later }

/-- One step of the machine, whatever the implementation's `ZERO_DIM_POLICY` (R6). -/
def step (s : State) : Host.Outcome State Fault Refusal := stepWith Config.zeroDimPolicy s

/-- An 8 x 8 header with 4 channels (`.qoi 8,8,4,0`), followed by one chunk of up to 5 bytes, as a
host places them (R71, R136). -/
def loadedFile (nbits w : Nat) : List Byte :=
  [0x71, 0x6F, 0x69, 0x66, 0, 0, 0, 8, 0, 0, 0, 8, 4, 0] ++ tableBytes nbits w

/-- `s` with the chunk placed where `step` reads the next one: a call on `loadedFile` is in progress,
its header is parsed, no pixel is emitted yet, and the host has no move. `PREV`, `CACHE` and the
replies stay. From `State.reset` this is the state the boot sequence of R136 leads to (log
entry 10). -/
def State.withFetchWord (s : State) (nbits w : Nat) : State :=
  { s with
    run := 0
    pos := 14
    npix := 64
    count := 0
    phase := .chunk
    err := 0
    magic := Config.goodMagic
    width := 8
    height := 8
    channels := 4
    colorspace := 0
    hdrValid := true
    inLen := 19
    inBuf := s.inBuf.writeBytes 0 (loadedFile nbits w)
    out := []
    moves := [] }

end Sys2Proof.Machine
end

