-- ==== Sys2Proof/Machine/Assembler.lean ====
section
/-! DEFINITION. The spec's textual syntax (30_encoding.md R69 to R74): what each line spells in bytes,
the disassembly of a chunk, and reading and printing a line's text. It has no effect on the block. -/

namespace Sys2Proof.Machine

/-! ## From lines to bytes -/

/-- A number that must lie in `lo .. hi`. -/
def ranged (lo hi v : Int) : Option Int := if inRange lo hi v then some v else none

/-- A channel operand, a raw byte, or a one-byte header field: 0..255. -/
def byteOperand (v : Int) : Option Byte := (ranged 0 255 v).map (BitVec.ofInt 8)

/-- The operands of a line, as a chunk of its kind; none when their number is wrong or one is outside
its range, since "An operand outside its range is refused by the assembler" (R69). -/
def chunkOf : Kind → List Int → Option Instr
  | .rgb, [r, g, b] => do
    let r ← byteOperand r
    let g ← byteOperand g
    let b ← byteOperand b
    some (.rgb r g b)
  | .rgba, [r, g, b, a] => do
    let r ← byteOperand r
    let g ← byteOperand g
    let b ← byteOperand b
    let a ← byteOperand a
    some (.rgba r g b a)
  | .index, [i] => (ranged 0 63 i).map fun i => .index (Fin.ofNat 64 i.toNat)
  | .diff, [dr, dg, db] => some (.diff dr dg db) |>.filter Instr.wellFormed
  | .luma, [dg, drdg, dbdg] => some (.luma dg drdg dbdg) |>.filter Instr.wellFormed
  | .run, [n] => (ranged 1 62 n).map fun n => .run n.toNat
  | _, _ => none

/-- A 32-bit value as 4 bytes big-endian (R71). -/
def bigEndian32 (v : Word32) : List Byte :=
  [v.extractLsb' 24 8, v.extractLsb' 16 8, v.extractLsb' 8 8, v.extractLsb' 0 8]

/-- A width or a height operand of `.qoi`: 32 bits. -/
def dimOperand (v : Int) : Option Word32 := (ranged 0 (2 ^ 32 - 1) v).map (BitVec.ofInt 32)

/-- The 14-byte header that `.qoi` spells (R71). -/
def headerBytes (w h : Word32) (channels colorspace : Byte) : List Byte :=
  [0x71, 0x6F, 0x69, 0x66] ++ bigEndian32 w ++ bigEndian32 h ++ [channels, colorspace]

/-- The 8-byte end marker (R72). -/
def endMarkerBytes : List Byte := [0, 0, 0, 0, 0, 0, 0, 1]

/-- The run lengths `REPEAT n` expands to (R73): `n / 62` times 62, then the rest if there is one. -/
def repeatRuns (n : Nat) : List Nat :=
  List.replicate (n / Config.runMax) Config.runMax ++
    (if n % Config.runMax = 0 then [] else [n % Config.runMax])

/-- The bytes a line spells; none where the assembler refuses it (R69 to R73). -/
def assembleLine : AsmLine → Option (List Byte)
  | .chunk kind operands => (chunkOf kind operands).map encode
  | .qoi w h channels colorspace => do
    let w ← dimOperand w
    let h ← dimOperand h
    let channels ← byteOperand channels
    let colorspace ← byteOperand colorspace
    some (headerBytes w h channels colorspace)
  | .bytes values => values.mapM byteOperand
  | .endMarker => some endMarkerBytes
  | .repeatRun n =>
    if 1 ≤ n then some ((repeatRuns n.toNat).flatMap fun k => encode (.run k)) else none

/-- The bytes of a program, line after line. -/
def assemble (lines : List AsmLine) : Option (List Byte) := (lines.mapM assembleLine).map List.flatten

/-! ## From bytes to lines -/

/-- A chunk as a line (R69): the signed operands after the bias is removed. -/
def lineOf : Instr → AsmLine
  | .rgb r g b => .chunk .rgb [r.toNat, g.toNat, b.toNat]
  | .rgba r g b a => .chunk .rgba [r.toNat, g.toNat, b.toNat, a.toNat]
  | .index i => .chunk .index [i.val]
  | .diff dr dg db => .chunk .diff [dr, dg, db]
  | .luma dg drdg dbdg => .chunk .luma [dg, drdg, dbdg]
  | .run n => .chunk .run [n]

/-- The disassembly of the chunk at `POS` (R74); none for a truncated chunk. -/
def disassembleAt (s : State) : Option AsmLine :=
  match fetch s with
  | .ok i => some (lineOf i)
  | .error _ => none

/-! ## The text of a line -/

/-- The mnemonic of a kind (R69). -/
def Kind.mnemonic : Kind → List Char
  | .rgb => ['R', 'G', 'B']
  | .rgba => ['R', 'G', 'B', 'A']
  | .index => ['I', 'N', 'D', 'E', 'X']
  | .diff => ['D', 'I', 'F', 'F']
  | .luma => ['L', 'U', 'M', 'A']
  | .run => ['R', 'U', 'N']

/-- The kind a mnemonic names. -/
def kindOfMnemonic (word : List Char) : Option Kind :=
  [Kind.rgb, .rgba, .index, .diff, .luma, .run].find? fun k => Kind.mnemonic k == word

/-- The digit of a number below 10. -/
def digitChar (d : Nat) : Char := Char.ofNat ('0'.toNat + d)

/-- Decimal digits of `n`, with `fuel` bounding their number. -/
def decimalDigits : Nat → Nat → List Char → List Char
  | 0, _, acc => acc
  | fuel + 1, n, acc =>
    if n < 10 then digitChar n :: acc else decimalDigits fuel (n / 10) (digitChar (n % 10) :: acc)

/-- An operand in decimal (R69). -/
def printInt (v : Int) : List Char :=
  if v < 0 then '-' :: decimalDigits (v.natAbs + 1) v.natAbs []
  else decimalDigits (v.natAbs + 1) v.natAbs []

/-- Operands separated by commas (R69). -/
def printOperands : List Int → List Char
  | [] => []
  | [v] => printInt v
  | v :: rest => printInt v ++ ',' :: printOperands rest

/-- The text of a line. -/
def printLine : AsmLine → List Char
  | .chunk kind operands => Kind.mnemonic kind ++ ' ' :: printOperands operands
  | .qoi w h channels colorspace => ['.', 'q', 'o', 'i', ' '] ++ printOperands [w, h, channels, colorspace]
  | .bytes values => ['.', 'b', 'y', 't', 'e', 's', ' '] ++ printOperands values
  | .endMarker => ['.', 'e', 'n', 'd']
  | .repeatRun n => ['R', 'E', 'P', 'E', 'A', 'T', ' '] ++ printInt n

/-- The value of decimal digits, after the value read so far; none if a character is no digit. -/
def readDigits : Nat → List Char → Option Nat
  | value, [] => some value
  | value, c :: rest =>
    if '0'.toNat ≤ c.toNat ∧ c.toNat ≤ '9'.toNat then readDigits (value * 10 + (c.toNat - '0'.toNat)) rest
    else none

/-- A decimal integer with an optional minus sign. -/
def readInt : List Char → Option Int
  | [] => none
  | ['-'] => none
  | '-' :: rest => (readDigits 0 rest).map fun n => -(n : Int)
  | c :: rest => (readDigits 0 (c :: rest)).map fun n => (n : Int)

/-- The pieces of a text between commas, their blanks kept. -/
def commaPieces : List Char → List (List Char)
  | [] => [[]]
  | ',' :: rest => [] :: commaPieces rest
  | c :: rest =>
    match commaPieces rest with
    | [] => [[c]]
    | piece :: more => (c :: piece) :: more

/-- A piece without the blanks before and after it. A blank INSIDE it stays, so that `readInt` refuses
the piece: the spec gives no rule on blanks, and this is the model's choice. Log entry 17
(DESIGN CHOICE, safe). -/
def trimBlanks (piece : List Char) : List Char :=
  ((piece.dropWhile (· == ' ')).reverse.dropWhile (· == ' ')).reverse

/-- The operands of a line's text: the integers between its commas (R69), blanks around each ignored
(log entry 17). -/
def readOperands (text : List Char) : Option (List Int) :=
  (commaPieces text).mapM fun piece => readInt (trimBlanks piece)

/-- The first word of a text and what follows the one blank after it. A text that starts with a blank
has the empty first word, which names no line (log entry 17). -/
def firstWord : List Char → List Char × List Char
  | [] => ([], [])
  | ' ' :: rest => ([], rest)
  | c :: rest => (c :: (firstWord rest).1, (firstWord rest).2)

/-- A line with its operands, by its first word. -/
def lineOfWord (word : List Char) (operands : List Int) : Option AsmLine :=
  if word = ['.', 'q', 'o', 'i'] then
    match operands with
    | [w, h, channels, colorspace] => some (.qoi w h channels colorspace)
    | _ => none
  else if word = ['.', 'b', 'y', 't', 'e', 's'] then some (.bytes operands)
  else if word = ['R', 'E', 'P', 'E', 'A', 'T'] then
    match operands with
    | [n] => some (.repeatRun n)
    | _ => none
  else (kindOfMnemonic word).map fun kind => .chunk kind operands

/-- Read the text of a line (R69, R71 to R73). What the spec says nothing of, blanks above all, is the
model's choice (log entry 17, DESIGN CHOICE). -/
def readLine (text : List Char) : Option AsmLine :=
  if (firstWord text).1 = ['.', 'e', 'n', 'd'] then
    if (firstWord text).2 = [] then some .endMarker else none
  else (readOperands (firstWord text).2).bind (lineOfWord (firstWord text).1)

end Sys2Proof.Machine
end

