-- ==== Sys2Proof/Safety.lean ====
section
/-! DEFINITION. What claims are stated in: the invariant of 10_state.md R39, reachable states, the
result of a call (60_exceptions.md R128), and names for the parts of the state a step leaves alone. -/

namespace Sys2Proof.Machine

/-! ## Parts of the state that stay -/

/-- The header registers and `NPIX` are the same. -/
structure SameHeader (s t : State) : Prop where
  magic : t.magic = s.magic
  width : t.width = s.width
  height : t.height = s.height
  channels : t.channels = s.channels
  colorspace : t.colorspace = s.colorspace
  hdrValid : t.hdrValid = s.hdrValid
  npix : t.npix = s.npix

/-- `IN_LEN` and `IN` are the same: the listed bytes, and what every offset reads as. -/
structure SameInput (s t : State) : Prop where
  inLen : t.inLen = s.inLen
  inBuf : t.inBuf = s.inBuf
  reads : ∀ a, inByte t a = inByte s a

/-- The host's coming moves and the replies it has had are the same. -/
structure SameHost (s t : State) : Prop where
  moves : t.moves = s.moves
  replies : t.replies = s.replies

/-- What a chunk that emits `p` and is `len` bytes long does to `PREV`, `POS`, `OUT`, `COUNT` and
`PHASE` (R93, R94), and the state no chunk touches. `CACHE` and `RUN` are left to each kind. -/
structure Emitted (p : Pixel) (len : Nat) (s t : State) : Prop where
  prev : t.prev = p
  pos : t.pos = s.pos + BitVec.ofNat 64 len
  out : t.out = s.out ++ [p]
  count : t.count = s.count + 1
  phase : t.phase = if s.count + 1 = s.npix then .done else s.phase
  err : t.err = s.err
  header : SameHeader s t
  input : SameInput s t
  host : SameHost s t

/-- `CACHE` after a write of `p` at its own slot `k`: that slot holds `p`, every other what it held
(R106). -/
structure CacheWritten (k : Fin 64) (p : Pixel) (s t : State) : Prop where
  slot : t.cache[k] = p
  others : ∀ j : Fin 64, j ≠ k → t.cache[j] = s.cache[j]

/-- `k` is the slot of pixel `p` (R104): the sum in full, then `mod 64`. -/
def SlotOf (k : Fin 64) (p : Pixel) : Prop :=
  k.val = (p.r.toNat * 3 + p.g.toNat * 5 + p.b.toNat * 7 + p.a.toNat * 11) % 64

/-- Channel `v` is channel `u` moved by `d`, modulo 256 (R8). -/
def MovedBy (d : Int) (u v : Byte) : Prop := (v.toNat : Int) = ((u.toNat : Int) + d) % 256

/-- Everything but `ERR` and `PHASE` is the same: what a raised error leaves (R10, R124). -/
structure RaisedFrom (e : FormatError) (s t : State) : Prop where
  phase : t.phase = .error
  err : t.err = e.code
  prev : t.prev = s.prev
  cache : t.cache = s.cache
  run : t.run = s.run
  pos : t.pos = s.pos
  count : t.count = s.count
  out : t.out = s.out
  header : SameHeader s t
  input : SameInput s t
  host : SameHost s t

/-- The decoder is about to take a chunk step: a call is in its chunk phase, no run is being continued
and the host has no move (R90, R91). -/
structure AtChunk (s : State) : Prop where
  phase : s.phase = .chunk
  run : s.run = 0
  moves : s.moves = []

/-- The header parse is the next step (R77). -/
structure AtHeader (s : State) : Prop where
  phase : s.phase = .header
  moves : s.moves = []

/-- Every register at its reset value, and `OUT` empty (R40). -/
structure ResetValues (t : State) : Prop where
  phase : t.phase = .idle
  err : t.err = 0
  prev : t.prev = ⟨0, 0, 0, 255⟩
  cache : ∀ i : Fin 64, t.cache[i] = ⟨0, 0, 0, 0⟩
  run : t.run = 0
  pos : t.pos = 0
  npix : t.npix = 0
  count : t.count = 0
  magic : t.magic = 0
  width : t.width = 0
  height : t.height = 0
  channels : t.channels = 0
  colorspace : t.colorspace = 0
  hdrValid : t.hdrValid = false
  inLen : t.inLen = 0
  out : t.out = []

/-- A 32-bit value as the file holds it, big-endian (R45). -/
def bigEndianAt (s : State) (a : Nat) : Nat :=
  (inByte s a).toNat * 2 ^ 24 + (inByte s (a + 1)).toNat * 2 ^ 16 +
    (inByte s (a + 2)).toNat * 2 ^ 8 + (inByte s (a + 3)).toNat

/-- The file is long enough for a header and starts with "qoif" (R78, R79). -/
structure MagicGood (s : State) : Prop where
  length : Config.headerLen ≤ s.inLen.toNat
  q : inByte s 0 = 0x71
  o : inByte s 1 = 0x6F
  i : inByte s 2 = 0x69
  f : inByte s 3 = 0x66

/-- The channels byte is one the header may have (R81). -/
def ChannelsGood (s : State) : Prop := inByte s 12 = 3 ∨ inByte s 12 = 4

/-- The colorspace byte is one the header may have (R82). -/
def ColorspaceGood (s : State) : Prop := inByte s 13 = 0 ∨ inByte s 13 = 1

/-- The host's next move is an accepted START: a write of `CTRL` with bit 0 = 1 outside a call
(R134). -/
def StartNext (s : State) : Prop :=
  s.phase.busy = false ∧
    ∃ v later, s.moves = HostMove.writeReg 0 v :: later ∧ v.getLsbD 0 = true

/-- The host's next move is a hardware reset (R132). -/
def ResetNext (s : State) : Prop := ∃ later, s.moves = HostMove.reset :: later

/-! ## The invariant -/

/-- What holds between steps (R39), with the facts the header registers, `OUT`, `ERR` and the input
buffer's form add to it (R23, R25, R46, R98, R124). Point 3 of R39, `POS ≤ IN_LEN`, is asked of the
phases of a call only: between calls the host may write a smaller `IN_LEN` (R31; log entry 9). Every
other step keeps it in every phase, which `Obligations.PosMayPassInLenAfterACall` states. -/
structure State.Inv (s : State) : Prop where
  /-- R39.1. -/
  countLe : s.count.toNat ≤ s.npix.toNat
  /-- R39.2. -/
  pixelsRemain : s.phase = .chunk → s.count.toNat < s.npix.toNat
  runFits : s.phase = .chunk → s.run.toNat ≤ s.npix.toNat - s.count.toNat
  /-- R39.3, during a call. -/
  posInInput : s.phase.busy = true → s.pos.toNat ≤ s.inLen.toNat
  posPastHeader : s.phase = .chunk → Config.headerLen ≤ s.pos.toNat
  /-- R39.4 and R18. -/
  runZero : s.phase ≠ .chunk → s.run = 0
  runMax : s.run.toNat ≤ 61
  /-- R39.5; in IDLE no header has been parsed since reset. -/
  headerKnown : s.phase = .chunk ∨ s.phase = .done → s.hdrValid = true
  headerUnknown : s.phase = .header ∨ s.phase = .idle → s.hdrValid = false
  /-- R39.6. -/
  cacheSlots : ∀ i : Fin 64, s.cache[i] = Pixel.clear ∨ pixelHash s.cache[i] = i
  /-- R25 and R85: a valid header is one the parser accepts, and `NPIX` is its pixel count. -/
  headerGood : s.hdrValid = true →
    s.magic = Config.goodMagic ∧ (s.channels = 3 ∨ s.channels = 4) ∧
      (s.colorspace = 0 ∨ s.colorspace = 1) ∧ s.npix.toNat = s.width.toNat * s.height.toNat
  /-- R25 and R140: without a valid header the header registers are 0, and no pixel was emitted. -/
  headerZero : s.hdrValid = false →
    s.magic = 0 ∧ s.width = 0 ∧ s.height = 0 ∧ s.channels = 0 ∧ s.colorspace = 0 ∧ s.npix = 0 ∧
      s.pos = 0
  /-- R21 and R46. -/
  outLength : s.out.length = s.count.toNat
  /-- R98. -/
  doneFull : s.phase = .done → s.count = s.npix
  /-- R23 and R119: a code 1 to 6 exactly in ERROR. -/
  errCode : s.phase = .error ↔ s.err ≠ 0
  errKnown : s.err.toNat ≤ 6
  /-- The input buffer keeps its canonical form. -/
  inputForm : s.inBuf.wf = true

/-- A state that some number of steps leads to from reset, under some list of moves of the host: any
file, any order of the two agents' steps. -/
def Reachable (s : State) : Prop :=
  ∃ moves k, Sys2Proof.core.run k { State.reset with moves := moves } = .next s

/-- `k` steps of the machine. -/
abbrev runSteps (k : Nat) (s : State) : Result := Sys2Proof.core.run k s

/-- A call has ended (R22). -/
def State.ended (s : State) : Prop := s.phase = .done ∨ s.phase = .error

/-! ## The result of a call -/

/-- The header registers (R25), as the host reads them after DONE. -/
structure HeaderView where
  magic : Word32
  width : Word32
  height : Word32
  channels : Byte
  colorspace : Byte
  hdrValid : Bool
deriving DecidableEq, Repr

/-- The result of a decode call (R128): the header registers and the pixels on DONE; on ERROR the code
alone, since the pixels already in `OUT` are not part of the result; none while no call has ended. -/
def callResult (s : State) : Option (BitVec 4 ⊕ (HeaderView × List Pixel)) :=
  match s.phase with
  | .done => some (.inr (⟨s.magic, s.width, s.height, s.channels, s.colorspace, s.hdrValid⟩, s.out))
  | .error => some (.inl s.err)
  | .idle => none
  | .header => none
  | .chunk => none

/-- The pixel at a row and a column of the image (R46): element `row * WIDTH + column`. -/
def pixelAt (s : State) (row column : Nat) : Option Pixel :=
  if column < s.width.toNat then s.out[row * s.width.toNat + column]? else none

/-- Two states agree on the input a call can read: `IN_LEN` and the bytes below it (R99). -/
structure SameFile (s t : State) : Prop where
  inLen : t.inLen = s.inLen
  bytes : ∀ a, a < s.inLen.toNat → inByte t a = inByte s a

/-- Two states agree on a call's outcome (R99): `PHASE`, `ERR`, the header registers, `POS`, `COUNT`
and `OUT`. -/
structure SameOutcome (s t : State) : Prop where
  phase : t.phase = s.phase
  err : t.err = s.err
  header : SameHeader s t
  pos : t.pos = s.pos
  count : t.count = s.count
  out : t.out = s.out

end Sys2Proof.Machine
end

