-- ==== Sys2Proof/Certificates/Slice0/Obligations.lean ====
section
/-! DEFINITION. The statements for the provers, each from the rules of spec/ its docstring names. -/

open Sys2Proof Sys2Proof.Machine

/-! ## Reset and START -/

/-- R132, R133, R40: the machine starts in the reset values, and a hardware reset, in any phase, leads
back to them and empties `OUT`; it ends a call in progress with no result, `IN` and the host's own lists
are not touched, and the decoder then has no step. -/
def Obligations.HardwareResetPutsEveryRegister : Prop :=
  ResetValues Sys2Proof.core.reset ∧
  ∀ (s : State) (later : List HostMove), s.moves = .reset :: later →
    ∃ t, step s = .next t ∧ ResetValues t ∧ callResult t = none ∧
      (∀ a, inByte t a = inByte s a) ∧ t.inBuf = s.inBuf ∧
      t.moves = later ∧ t.replies = s.replies ∧ ∀ pol u, decoderStep pol t ≠ .next u

/-- R134: an accepted START initialises every piece of decode state, leaves `IN_LEN` and `IN` as they
are, and goes to HEADER. -/
def Obligations.StartInitialisesTheCall : Prop :=
  ∀ (s : State) (v : Word32) (later : List HostMove),
    s.phase = .idle ∨ s.phase = .done ∨ s.phase = .error → v.getLsbD 0 = true →
    s.moves = .writeReg 0 v :: later →
    ∃ t, step s = .next t ∧
      t.prev = ⟨0, 0, 0, 255⟩ ∧ (∀ i : Fin 64, t.cache[i] = ⟨0, 0, 0, 0⟩) ∧
      t.run = 0 ∧ t.pos = 0 ∧ t.count = 0 ∧ t.npix = 0 ∧
      t.magic = 0 ∧ t.width = 0 ∧ t.height = 0 ∧ t.channels = 0 ∧ t.colorspace = 0 ∧
      t.hdrValid = false ∧ t.err = 0 ∧ t.out = [] ∧ t.phase = .header ∧
      SameInput s t ∧ t.moves = later ∧ t.replies = s.replies

/-- R29, R135: a write of `CTRL` with bit 0 = 1 while a call is in progress, and one with bit 0 = 0 in
any phase, changes no state of the block, and `CTRL` reads 0. -/
def Obligations.CtrlWriteOtherwiseIgnored : Prop :=
  ∀ (s : State) (v : Word32) (later : List HostMove),
    (s.moves = .writeReg 0 v :: later →
      s.phase = .header ∨ s.phase = .chunk ∨ v.getLsbD 0 = false →
      step s = .next { s with moves := later }) ∧
    (s.moves = .readReg 0 :: later →
      step s = .next { s with moves := later, replies := s.replies ++ [.reg 0 (some 0)] })

/-! ## The register window -/

/-- R31: `IN_LEN` is written by halves outside a call, ignores writes during one, is read by halves,
is never written by the decoder, and a value below 14 makes the header parse raise `Truncated`. -/
def Obligations.InLenIsWrittenByHalvesOutsideACall : Prop :=
  ∀ (s : State) (v : Word32) (later : List HostMove),
    (s.phase ≠ .header → s.phase ≠ .chunk →
      (s.moves = .writeReg 2 v :: later →
        ∃ n : Word64, step s = .next { s with moves := later, inLen := n } ∧
          n.toNat = s.inLen.toNat / 2 ^ 32 * 2 ^ 32 + v.toNat) ∧
      (s.moves = .writeReg 3 v :: later →
        ∃ n : Word64, step s = .next { s with moves := later, inLen := n } ∧
          n.toNat = v.toNat * 2 ^ 32 + s.inLen.toNat % 2 ^ 32)) ∧
    (s.phase = .header ∨ s.phase = .chunk →
      s.moves = .writeReg 2 v :: later ∨ s.moves = .writeReg 3 v :: later →
      step s = .next { s with moves := later }) ∧
    (s.moves = .readReg 2 :: later →
      ∃ r : Word32, r.toNat = s.inLen.toNat % 2 ^ 32 ∧
        step s = .next { s with moves := later, replies := s.replies ++ [.reg 2 (some r)] }) ∧
    (s.moves = .readReg 3 :: later →
      ∃ r : Word32, r.toNat = s.inLen.toNat / 2 ^ 32 ∧
        step s = .next { s with moves := later, replies := s.replies ++ [.reg 3 (some r)] }) ∧
    (AtHeader s → s.inLen.toNat < 14 →
      ∃ t, step s = .next t ∧ RaisedFrom .truncated s t) ∧
    (∀ pol t, decoderStep pol s = .next t → t.inLen = s.inLen)

/-- R37, R36: a host read of any register has no side effect, and a host write to any register but
`CTRL`, `IN_LEN_LO` and `IN_LEN_HI` changes no state. That a number above 15, which does not select the
block (R28), changes nothing either is the model's reading (log entry 14, DEDUCED). (The reply list is
the model's own record of what the host has read; log entry 3.) -/
def Obligations.ReadsAndReadOnlyWritesChangeNothing : Prop :=
  ∀ (s : State) (n : Nat) (v : Word32) (later : List HostMove),
    (s.moves = .readReg n :: later →
      ∃ r, step s = .next { s with moves := later, replies := s.replies ++ [.reg n r] }) ∧
    (n ≠ 0 → n ≠ 2 → n ≠ 3 → s.moves = .writeReg n v :: later →
      step s = .next { s with moves := later })

/-- R30: `STATUS` shows `PHASE_V` in bits 1:0, `ERR` in bits 7:4 and `HDR_VALID` in bit 8, all other
bits 0; reading it has no side effect and writing it is ignored. -/
def Obligations.StatusShowsPhaseErrAndHeaderValid : Prop :=
  ∀ (s : State) (v : Word32) (later : List HostMove),
    (s.moves = .readReg 1 :: later →
      ∃ r : Word32,
        step s = .next { s with moves := later, replies := s.replies ++ [.reg 1 (some r)] } ∧
        r.toNat = (match s.phase with
            | .idle => 0
            | .header => 1
            | .chunk => 1
            | .done => 2
            | .error => 3) + 16 * s.err.toNat + (if s.hdrValid then 256 else 0)) ∧
    (s.moves = .writeReg 1 v :: later → step s = .next { s with moves := later })

/-- R32, R33, R34, R35, R36: what the read-only registers 4 to 15 return, and that writes to them are
ignored. -/
def Obligations.ReadOnlyRegistersReturnTheirFields : Prop :=
  ∀ (s : State) (n : Nat) (later : List HostMove), 4 ≤ n → n ≤ 15 →
    (s.moves = .readReg n :: later →
      ∃ r : Word32,
        step s = .next { s with moves := later, replies := s.replies ++ [.reg n (some r)] } ∧
        (n = 4 → r = s.magic) ∧ (n = 5 → r = s.width) ∧ (n = 6 → r = s.height) ∧
        (n = 7 → r.toNat = s.channels.toNat) ∧ (n = 8 → r.toNat = s.colorspace.toNat) ∧
        (n = 9 → r.toNat = s.pos.toNat % 2 ^ 32) ∧ (n = 10 → r.toNat = s.pos.toNat / 2 ^ 32) ∧
        (n = 11 → r.toNat = s.count.toNat % 2 ^ 32) ∧
        (n = 12 → r.toNat = s.count.toNat / 2 ^ 32) ∧
        (13 ≤ n → r = 0)) ∧
    (∀ v, s.moves = .writeReg n v :: later → step s = .next { s with moves := later })

/-! ## The input buffer and the output stream -/

/-- Outside a call the host may place bytes in `IN` (R42, R54), each of which then reads back, every
other offset reading as before. Where such a write may go is the model's reading of R42 (log entry 6). -/
def Obligations.PlacedInputReadsBack : Prop :=
  ∀ (s : State) (offset : Nat) (bytes : List Byte) (later : List HostMove),
    s.phase ≠ .header → s.phase ≠ .chunk → s.inBuf.wf = true →
    offset + bytes.length ≤ 2 ^ 64 - 1 → s.moves = .placeInput offset bytes :: later →
    ∃ m, step s = .next { s with moves := later, inBuf := m } ∧ m.wf = true ∧
      (∀ k (h : k < bytes.length), inByte { s with inBuf := m } (offset + k) = bytes[k]) ∧
      (∀ a, a < offset ∨ offset + bytes.length ≤ a →
        inByte { s with inBuf := m } a = inByte s a)

/-- The model's stops on a host write to `IN`: refused during a call, as U5 asks (log entry 5), and a
fault at an offset `IN` cannot have (log entry 6). -/
def Obligations.InputWriteStops : Prop :=
  ∀ (s : State) (offset : Nat) (bytes : List Byte) (later : List HostMove),
    s.moves = .placeInput offset bytes :: later →
    (s.phase = .header ∨ s.phase = .chunk → step s = .refused .inputWriteWhileBusy) ∧
    (s.phase ≠ .header → s.phase ≠ .chunk → 2 ^ 64 - 1 < offset + bytes.length →
      step s = .fault .noSuchInputOffset)

/-- The block never writes `IN` (R44): only a move of the host that places bytes changes it. That none
does during a call is the model's refusal of such a move (R137, U5; log entry 5, DEDUCED, unsafe).
`IN_LEN` too is constant for the whole call (R31): only a register write outside a call or a reset (R40)
changes it. -/
def Obligations.OnlyTheHostWritesInput : Prop :=
  ∀ s t : State, step s = .next t →
    ((∀ a, inByte t a = inByte s a) ∨
      (s.phase.busy = false ∧
        ∃ offset bytes later, s.moves = .placeInput offset bytes :: later)) ∧
    (t.inLen = s.inLen ∨ ResetNext s ∨
      (s.phase.busy = false ∧
        ∃ n v later, (n = 2 ∨ n = 3) ∧ s.moves = .writeReg n v :: later))

/-- R46, R49: a step appends at most one element to `OUT`, as element number `COUNT`, and never changes
one already there; only a START or a reset empties it. -/
def Obligations.OutOnlyGrows : Prop :=
  ∀ s t : State, s.Inv → step s = .next t → ¬ StartNext s → ¬ ResetNext s →
    t.out = s.out ∧ t.count = s.count ∨
    ∃ p, t.out = s.out ++ [p] ∧ t.out[s.count.toNat]? = some p ∧ t.count = s.count + 1

/-- R47: element `k` of `OUT` stored as bytes takes offsets `4k .. 4k+3`, in the order r, g, b, a, and
there is nothing past the last element. -/
def Obligations.OutputByteOrder : Prop :=
  ∀ (s : State) (k : Nat),
    (∀ p, s.out[k]? = some p →
      outByte s (4 * k) = some p.r ∧ outByte s (4 * k + 1) = some p.g ∧
      outByte s (4 * k + 2) = some p.b ∧ outByte s (4 * k + 3) = some p.a) ∧
    (4 * s.out.length ≤ k → outByte s k = none)

/-! ## The header parse -/

/-- R85, R80: when no check raises, the header parse writes all the header registers, the exact pixel
count, `POS = 14` and the phase in one step, and nothing else; no later step of the call writes the
header registers. -/
def Obligations.HeaderParseLatchesTheHeader : Prop :=
  (∀ (pol : ZeroDimPolicy) (s t : State), AtHeader s → stepWith pol s = .next t →
    t.phase ≠ .error →
      t.magic.toNat = bigEndianAt s 0 ∧
      t.width.toNat = bigEndianAt s 4 ∧ t.height.toNat = bigEndianAt s 8 ∧
      t.channels = inByte s 12 ∧ t.colorspace = inByte s 13 ∧ t.hdrValid = true ∧
      t.npix.toNat = bigEndianAt s 4 * bigEndianAt s 8 ∧ t.pos = 14 ∧
      (t.npix ≠ 0 → t.phase = .chunk) ∧ (t.npix = 0 → t.phase = .done) ∧
      t.prev = s.prev ∧ t.cache = s.cache ∧ t.run = s.run ∧ t.count = s.count ∧
      t.out = s.out ∧ t.err = s.err ∧ SameInput s t ∧ SameHost s t) ∧
  (∀ (pol : ZeroDimPolicy) (s t : State), s.phase = .chunk → stepWith pol s = .next t →
    ¬ ResetNext s → SameHeader s t)

/-- The header parse raises the first error in the order length, magic, channels, colorspace, zero
dimension (R86), and none when every check passes. The magic's byte values are the spec's general
knowledge (GK2, log entry 8). -/
def Obligations.HeaderErrorsComeInOrder : Prop :=
  ∀ (pol : ZeroDimPolicy) (s : State), AtHeader s →
    (s.inLen.toNat < 14 → ∃ t, stepWith pol s = .next t ∧ RaisedFrom .truncated s t) ∧
    (14 ≤ s.inLen.toNat → ¬ MagicGood s →
      ∃ t, stepWith pol s = .next t ∧ RaisedFrom .badMagic s t) ∧
    (MagicGood s → ¬ ChannelsGood s →
      ∃ t, stepWith pol s = .next t ∧ RaisedFrom .invalidChannels s t) ∧
    (MagicGood s → ChannelsGood s → ¬ ColorspaceGood s →
      ∃ t, stepWith pol s = .next t ∧ RaisedFrom .invalidColorspace s t) ∧
    (MagicGood s → ChannelsGood s → ColorspaceGood s →
      bigEndianAt s 4 = 0 ∨ bigEndianAt s 8 = 0 → pol = .reject →
      ∃ t, stepWith pol s = .next t ∧ RaisedFrom .zeroDimension s t) ∧
    (MagicGood s → ChannelsGood s → ColorspaceGood s →
      pol = .accept ∨ bigEndianAt s 4 ≠ 0 ∧ bigEndianAt s 8 ≠ 0 →
      ∃ t, stepWith pol s = .next t ∧ t.phase ≠ .error ∧ t.err = s.err)

/-- R83: a zero dimension, in a header no other check of REJECT raises on, raises `ZeroDimension` under
REJECT; under ACCEPT the header is accepted with `NPIX = 0` and the call is DONE with an empty `OUT` and
`POS = 14`. The machine follows one of the two policies. -/
def Obligations.ZeroDimensionFollowsThePolicy : Prop :=
  ∀ s : State, AtHeader s →
    (∀ e t, stepWith .reject s = .next t → RaisedFrom e s t → e = .zeroDimension) →
    bigEndianAt s 4 = 0 ∨ bigEndianAt s 8 = 0 →
    (∃ t, stepWith .reject s = .next t ∧ RaisedFrom .zeroDimension s t) ∧
    (∃ t, stepWith .accept s = .next t ∧ t.hdrValid = true ∧ t.npix = 0 ∧ t.phase = .done ∧
      t.pos = 14 ∧ (s.out = [] → t.out = []) ∧ t.err = s.err) ∧
    (step s = stepWith .reject s ∨ step s = stepWith .accept s)

/-- R88: the outcome of the header parse is a function of `IN_LEN`, `IN[0..13]` and `ZERO_DIM_POLICY`
alone: two states that agree on them raise the same error or latch the same header. -/
def Obligations.HeaderOutcomeDependsOnHeaderBytesOnly : Prop :=
  ∀ (pol : ZeroDimPolicy) (s u : State), AtHeader s → AtHeader u → u.inLen = s.inLen →
    (∀ a, a < 14 → inByte u a = inByte s a) →
    ∃ t w, stepWith pol s = .next t ∧ stepWith pol u = .next w ∧
      ((∃ e, RaisedFrom e s t ∧ RaisedFrom e u w) ∨
        (SameHeader t w ∧ w.pos = t.pos ∧ w.phase = t.phase ∧ t.hdrValid = true))

/-! ## Decoding -/

/-- R62, R74: the tag byte alone gives a chunk's length; with all its payload bytes the chunk decodes
and leaves what follows, and with fewer it is cut. -/
def Obligations.TagByteAloneFixesTheLength : Prop :=
  ∀ (b0 : Byte) (pay after : List Byte),
    let len := if b0 = 0xFE then 4 else if b0 = 0xFF then 5
      else if b0.toNat / 64 = 2 then 2 else 1
    chunkLen b0 = len ∧
    (pay.length + 1 = len → ∃ i, decode (b0 :: (pay ++ after)) = .ok (i, after)) ∧
    (pay.length + 1 < len → decode (b0 :: pay) = .error .payloadCut)

/-- R63, R64 with R61: what every tag byte decodes to. The three DIFF field positions are the spec's
general knowledge (GK1, log entry 7). -/
def Obligations.EveryTagByteDecodes : Prop :=
  ∀ (b0 b1 b2 b3 b4 : Byte) (after : List Byte),
    (b0.toNat ≤ 0x3F →
      ∃ i : Fin 64, i.val = b0.toNat ∧ decode (b0 :: after) = .ok (.index i, after)) ∧
    (0x40 ≤ b0.toNat → b0.toNat ≤ 0x7F →
      decode (b0 :: after) =
        .ok (.diff ((b0.toNat / 16 % 4 : Nat) - 2) ((b0.toNat / 4 % 4 : Nat) - 2)
          ((b0.toNat % 4 : Nat) - 2), after)) ∧
    (0x80 ≤ b0.toNat → b0.toNat ≤ 0xBF →
      decode (b0 :: b1 :: after) =
        .ok (.luma ((b0.toNat % 64 : Nat) - 32) ((b1.toNat / 16 : Nat) - 8)
          ((b1.toNat % 16 : Nat) - 8), after)) ∧
    (0xC0 ≤ b0.toNat → b0.toNat ≤ 0xFD →
      decode (b0 :: after) = .ok (.run (b0.toNat - 0xC0 + 1), after)) ∧
    (b0.toNat = 0xFE → decode (b0 :: b1 :: b2 :: b3 :: after) = .ok (.rgb b1 b2 b3, after)) ∧
    (b0.toNat = 0xFF →
      decode (b0 :: b1 :: b2 :: b3 :: b4 :: after) = .ok (.rgba b1 b2 b3 b4, after))

/-- Chunks of 95_test_vectors.md, one of each kind, decode to what the spec says they are. -/
def Obligations.SampleChunksDecode : Prop :=
  decodeTableWord 32 0x0A0A0AFE = some (.rgb 10 10 10) ∧
  decodeTableWord 40 0xFF302010FF = some (.rgba 16 32 48 255) ∧
  decodeTableWord 8 0x0B = some (.index 11) ∧
  decodeTableWord 8 0x5B = some (.diff (-1) 0 1) ∧
  decodeTableWord 16 0x4BA5 = some (.luma 5 (-4) 3) ∧
  decodeTableWord 8 0xFD = some (.run 62)

/-- R75, first half: decoding the encoding of a chunk with in-range operands gives the chunk back, and
leaves what follows it; and the assembler spells that encoding for the chunk's line. -/
def Obligations.DecodeOfEncode : Prop :=
  ∀ (i : Instr) (after : List Byte), i.wellFormed = true →
    decode (encode i ++ after) = .ok (i, after) ∧ assembleLine (lineOf i) = some (encode i)

/-- R75, second half: decoding a complete chunk gives in-range operands, and encoding them gives the
same bytes. -/
def Obligations.EncodeOfDecode : Prop :=
  ∀ (bytes after : List Byte) (i : Instr), decode bytes = .ok (i, after) →
    i.wellFormed = true ∧ encode i ++ after = bytes

/-- R69: the assembler takes a chunk's line exactly when every operand is in its range. -/
def Obligations.AssemblerTakesInRangeOperandsOnly : Prop :=
  ∀ u v w x : Int,
    ((assembleLine (.chunk .rgb [u, v, w])).isSome = true ↔
      (0 ≤ u ∧ u ≤ 255) ∧ (0 ≤ v ∧ v ≤ 255) ∧ 0 ≤ w ∧ w ≤ 255) ∧
    ((assembleLine (.chunk .rgba [u, v, w, x])).isSome = true ↔
      (0 ≤ u ∧ u ≤ 255) ∧ (0 ≤ v ∧ v ≤ 255) ∧ (0 ≤ w ∧ w ≤ 255) ∧ 0 ≤ x ∧ x ≤ 255) ∧
    ((assembleLine (.chunk .index [u])).isSome = true ↔ 0 ≤ u ∧ u ≤ 63) ∧
    ((assembleLine (.chunk .diff [u, v, w])).isSome = true ↔
      (-2 ≤ u ∧ u ≤ 1) ∧ (-2 ≤ v ∧ v ≤ 1) ∧ -2 ≤ w ∧ w ≤ 1) ∧
    ((assembleLine (.chunk .luma [u, v, w])).isSome = true ↔
      (-32 ≤ u ∧ u ≤ 31) ∧ (-8 ≤ v ∧ v ≤ 7) ∧ -8 ≤ w ∧ w ≤ 7) ∧
    ((assembleLine (.chunk .run [u])).isSome = true ↔ 1 ≤ u ∧ u ≤ 62)

/-- R73: `REPEAT n` spells `n / 62` chunks RUN 62 and one RUN of the rest if there is one: runs of 1 to
62 pixels, `n` pixels in all. -/
def Obligations.RepeatSpellsItsRuns : Prop :=
  ∀ n : Nat, 1 ≤ n →
    ∃ runs : List Nat,
      assembleLine (.repeatRun n) = some (runs.flatMap fun k => encode (.run k)) ∧
      runs.sum = n ∧ (∀ k ∈ runs, 1 ≤ k ∧ k ≤ 62) ∧
      runs.length = n / 62 + (if n % 62 = 0 then 0 else 1) ∧ ∀ k ∈ runs.dropLast, k = 62

/-! ## The chunks: their own effect -/

/-- RGB in any state (R102, R94): it emits `(r, g, b, PREV.a)`, writes it to its slot, and changes
nothing else. -/
def Obligations.RgbEmitsItsLiteral : Prop :=
  ∀ (r g b : Byte) (s : State), ∃ t k,
    exec (.rgb r g b) s = .next t ∧ SlotOf k ⟨r, g, b, s.prev.a⟩ ∧
    Emitted ⟨r, g, b, s.prev.a⟩ 4 s t ∧ CacheWritten k ⟨r, g, b, s.prev.a⟩ s t ∧ t.run = s.run

/-- RGBA in any state (R103, R94): it emits `(r, g, b, a)`, writes it to its slot, and changes nothing
else. -/
def Obligations.RgbaEmitsItsLiteral : Prop :=
  ∀ (r g b a : Byte) (s : State), ∃ t k,
    exec (.rgba r g b a) s = .next t ∧ SlotOf k ⟨r, g, b, a⟩ ∧
    Emitted ⟨r, g, b, a⟩ 5 s t ∧ CacheWritten k ⟨r, g, b, a⟩ s t ∧ t.run = s.run

/-- INDEX in any state (R107, R108, R94): it emits the pixel of its slot verbatim and changes no
slot. -/
def Obligations.IndexEmitsItsSlot : Prop :=
  ∀ (i : Fin 64) (s : State), ∃ t,
    exec (.index i) s = .next t ∧ Emitted s.cache[i] 1 s t ∧ t.cache = s.cache ∧ t.run = s.run

/-- DIFF in any state (R110, R94): each of r, g, b moves by its delta modulo 256, alpha stays, the
pixel is written to its slot, and nothing else changes. -/
def Obligations.DiffMovesEachChannel : Prop :=
  ∀ (dr dg db : Int) (s : State), ∃ t p k,
    exec (.diff dr dg db) s = .next t ∧
    MovedBy dr s.prev.r p.r ∧ MovedBy dg s.prev.g p.g ∧ MovedBy db s.prev.b p.b ∧
    p.a = s.prev.a ∧ SlotOf k p ∧ Emitted p 1 s t ∧ CacheWritten k p s t ∧ t.run = s.run

/-- LUMA in any state (R111, R94): green moves by `dg`, red by `dg + dr_dg` and blue by `dg + db_dg`,
modulo 256, alpha stays, the pixel is written to its slot, and nothing else changes. -/
def Obligations.LumaMovesAroundGreen : Prop :=
  ∀ (dg drdg dbdg : Int) (s : State), ∃ t p k,
    exec (.luma dg drdg dbdg) s = .next t ∧
    MovedBy (dg + drdg) s.prev.r p.r ∧ MovedBy dg s.prev.g p.g ∧
    MovedBy (dg + dbdg) s.prev.b p.b ∧
    p.a = s.prev.a ∧ SlotOf k p ∧ Emitted p 2 s t ∧ CacheWritten k p s t ∧ t.run = s.run

/-- RUN of an in-range length that fits the remaining pixels (R114, R94): it emits the previous pixel,
loads `RUN` with `n - 1`, writes the pixel to its slot, and changes nothing else. -/
def Obligations.RunEmitsThePreviousPixel : Prop :=
  ∀ (n : Nat) (s : State), 1 ≤ n → n ≤ 62 →
    s.count.toNat + n ≤ s.npix.toNat →
    ∃ t k, exec (.run n) s = .next t ∧ t.run.toNat = n - 1 ∧ SlotOf k s.prev ∧
      Emitted s.prev 1 s t ∧ CacheWritten k s.prev s t

/-- A RUN longer than the remaining pixels raises `Overrun` before it emits any pixel, and the whole
chunk is refused; a run of exactly the remaining pixels is legal (R116). -/
def Obligations.RunTooLongRaisesOverrun : Prop :=
  ∀ (n : Nat) (s : State),
    (s.npix.toNat < s.count.toNat + n →
      ∃ t, exec (.run n) s = .next t ∧ RaisedFrom .overrun s t) ∧
    (s.npix.toNat = s.count.toNat + n → 1 ≤ n →
      ∃ t, exec (.run n) s = .next t ∧ t.err = s.err ∧ t.count = s.count + 1)

/-- R125: a RUN longer than the remaining pixels raises `Overrun` before any of its pixels; no other
chunk takes a call to ERROR in `exec`, and a run continuation never does. -/
def Obligations.OnlyRunOverruns : Prop :=
  (∀ (n : Nat) (s : State), s.npix.toNat < s.count.toNat + n →
    ∃ t, exec (.run n) s = .next t ∧ RaisedFrom .overrun s t) ∧
  (∀ (i : Instr) (s t : State), exec i s = .next t → s.phase ≠ .error → t.phase = .error →
    ∃ n, i = .run n ∧ s.npix.toNat < s.count.toNat + n ∧ RaisedFrom .overrun s t) ∧
  (∀ s : State, s.phase = .chunk → s.run ≠ 0 → s.moves = [] →
    ∃ t, step s = .next t ∧ t.phase ≠ .error ∧ t.err = s.err)

/-- R106, R94: every chunk that emits a pixel, but INDEX, writes that pixel to its own slot and to no
other; INDEX writes no slot. -/
def Obligations.CacheWriteIsOneSlot : Prop :=
  ∀ (i : Instr) (s t : State), exec i s = .next t → t.count = s.count + 1 →
    (i.kind = .index → t.cache = s.cache) ∧
    (i.kind ≠ .index → ∃ k, SlotOf k t.prev ∧ CacheWritten k t.prev s t)

/-- R141: an INDEX right after the chunk that filled its slot returns that chunk's pixel. -/
def Obligations.IndexReturnsThePixelJustWritten : Prop :=
  ∀ (i : Instr) (s t : State) (k : Fin 64), exec i s = .next t → t.count = s.count + 1 →
    i.kind ≠ .index → SlotOf k t.prev →
    ∃ u, exec (.index k) t = .next u ∧ u.prev = t.prev ∧ u.out = t.out ++ [t.prev]

/-- R104: the hash is the full sum of `3r + 5g + 7b + 11a`, then `mod 64`. -/
def Obligations.HashIsTheSumModulo64 : Prop :=
  ∀ p : Pixel, SlotOf (pixelHash p) p

/-- R105: any adder at least 6 bits wide gives the same hash, and so do products cut to 6 bits. -/
def Obligations.HashFromANarrowAdder : Prop :=
  ∀ (p : Pixel) (w : Nat), 6 ≤ w →
    (pixelHash p).val =
      (p.r.toNat * 3 + p.g.toNat * 5 + p.b.toNat * 7 + p.a.toNat * 11) % 2 ^ w % 64 ∧
    (pixelHash p).val =
      (p.r.toNat * 3 % 64 + p.g.toNat * 5 % 64 + p.b.toNat * 7 % 64 + p.a.toNat * 11 % 64) % 64

/-- R109: the delta adder's three lanes are independent and wrap modulo 256; alpha passes through. -/
def Obligations.DeltaAdderLanesWrap : Prop :=
  ∀ (q : Pixel) (dr dg db : Int),
    MovedBy dr q.r (deltaAdd q dr dg db).r ∧ MovedBy dg q.g (deltaAdd q dr dg db).g ∧
    MovedBy db q.b (deltaAdd q dr dg db).b ∧ (deltaAdd q dr dg db).a = q.a

/-! ## The chunks: from their bytes -/

/-- When the bytes at `POS` decode to a chunk that lies whole below `IN_LEN`, the step is the chunk's
own effect at that state (R91, R92, R95); where the host waits, at the state without that wait (log
entry 3). -/
def Obligations.StepRunsTheDecodedChunk : Prop :=
  ∀ (s : State) (i : Instr) (n : Nat), s.phase = .chunk → s.run = 0 →
    s.pos.toNat + n ≤ s.inLen.toNat → decode (memRead s s.pos.toNat n) = .ok (i, []) →
    (s.moves = [] → step s = exec i s) ∧
    (∀ later, s.moves = .wait :: later → step s = exec i { s with moves := later })

/-- R102: an RGB chunk, from its bytes at `POS`; `Truncated` when fewer than 4 bytes remain, with
nothing of the chunk applied. -/
def Obligations.RgbChunkStep : Prop :=
  ∀ s : State, AtChunk s → inByte s s.pos.toNat = 0xFE →
    (s.pos.toNat + 4 ≤ s.inLen.toNat →
      let p : Pixel := ⟨inByte s (s.pos.toNat + 1), inByte s (s.pos.toNat + 2),
        inByte s (s.pos.toNat + 3), s.prev.a⟩
      ∃ t k, step s = .next t ∧ SlotOf k p ∧ Emitted p 4 s t ∧ CacheWritten k p s t ∧
        t.run = 0) ∧
    (s.pos.toNat < s.inLen.toNat → s.inLen.toNat < s.pos.toNat + 4 →
      ∃ t, step s = .next t ∧ RaisedFrom .truncated s t)

/-- R103: an RGBA chunk, from its bytes at `POS`; `Truncated` when fewer than 5 bytes remain. -/
def Obligations.RgbaChunkStep : Prop :=
  ∀ s : State, AtChunk s → inByte s s.pos.toNat = 0xFF →
    (s.pos.toNat + 5 ≤ s.inLen.toNat →
      let p : Pixel := ⟨inByte s (s.pos.toNat + 1), inByte s (s.pos.toNat + 2),
        inByte s (s.pos.toNat + 3), inByte s (s.pos.toNat + 4)⟩
      ∃ t k, step s = .next t ∧ SlotOf k p ∧ Emitted p 5 s t ∧ CacheWritten k p s t ∧
        t.run = 0) ∧
    (s.pos.toNat < s.inLen.toNat → s.inLen.toNat < s.pos.toNat + 5 →
      ∃ t, step s = .next t ∧ RaisedFrom .truncated s t)

/-- R107: an INDEX chunk, from its byte at `POS`: it emits the slot's pixel, writes no slot and raises
nothing. -/
def Obligations.IndexChunkStep : Prop :=
  ∀ (s : State) (i : Fin 64), AtChunk s → (inByte s s.pos.toNat).toNat = i.val →
    s.pos.toNat < s.inLen.toNat →
    ∃ t, step s = .next t ∧ Emitted s.cache[i] 1 s t ∧ t.cache = s.cache ∧ t.run = 0

/-- R110: a DIFF chunk, from its byte at `POS`. The three field positions are the spec's general
knowledge (GK1, log entry 7). -/
def Obligations.DiffChunkStep : Prop :=
  ∀ s : State, AtChunk s → s.pos.toNat < s.inLen.toNat →
    (inByte s s.pos.toNat).toNat / 64 = 1 →
    let b0 := (inByte s s.pos.toNat).toNat
    ∃ t p k, step s = .next t ∧
      MovedBy ((b0 / 16 % 4 : Nat) - 2) s.prev.r p.r ∧
      MovedBy ((b0 / 4 % 4 : Nat) - 2) s.prev.g p.g ∧
      MovedBy ((b0 % 4 : Nat) - 2) s.prev.b p.b ∧ p.a = s.prev.a ∧
      SlotOf k p ∧ Emitted p 1 s t ∧ CacheWritten k p s t ∧ t.run = 0

/-- R111: a LUMA chunk, from its bytes at `POS`; `Truncated` when the second byte is absent. -/
def Obligations.LumaChunkStep : Prop :=
  ∀ s : State, AtChunk s → s.pos.toNat < s.inLen.toNat →
    (inByte s s.pos.toNat).toNat / 64 = 2 →
    let b0 := (inByte s s.pos.toNat).toNat
    let b1 := (inByte s (s.pos.toNat + 1)).toNat
    let dg : Int := (b0 % 64 : Nat) - 32
    (s.pos.toNat + 2 ≤ s.inLen.toNat →
      ∃ t p k, step s = .next t ∧
        MovedBy (dg + ((b1 / 16 : Nat) - 8)) s.prev.r p.r ∧ MovedBy dg s.prev.g p.g ∧
        MovedBy (dg + ((b1 % 16 : Nat) - 8)) s.prev.b p.b ∧ p.a = s.prev.a ∧
        SlotOf k p ∧ Emitted p 2 s t ∧ CacheWritten k p s t ∧ t.run = 0) ∧
    (s.inLen.toNat < s.pos.toNat + 2 →
      ∃ t, step s = .next t ∧ RaisedFrom .truncated s t)

/-- R114: a RUN chunk, from its byte at `POS`: `Overrun` when the run is longer than the remaining
pixels, else its first pixel with `RUN` loaded. -/
def Obligations.RunChunkStep : Prop :=
  ∀ (s : State) (n : Nat), AtChunk s → s.pos.toNat < s.inLen.toNat →
    1 ≤ n → n ≤ 62 → (inByte s s.pos.toNat).toNat = 0xC0 + (n - 1) →
    (s.count.toNat + n ≤ s.npix.toNat →
      ∃ t k, step s = .next t ∧ t.run.toNat = n - 1 ∧ SlotOf k s.prev ∧
        Emitted s.prev 1 s t ∧ CacheWritten k s.prev s t) ∧
    (s.npix.toNat < s.count.toNat + n → ∃ t, step s = .next t ∧ RaisedFrom .overrun s t)

/-- R115, R90: a run continuation emits `PREV` once more and counts `RUN` down, reads no input (it is
the same wherever `POS` stands), and leaves `POS`, `PREV` and `CACHE` as they are; the one that emits the
last pixel leaves `RUN = 0` and `PHASE = DONE`. -/
def Obligations.RunContinuationStep : Prop :=
  ∀ s : State, s.phase = .chunk → s.run ≠ 0 → s.moves = [] →
    ∃ t, step s = .next t ∧ t.run.toNat = s.run.toNat - 1 ∧ Emitted s.prev 0 s t ∧
      t.cache = s.cache ∧ (s.Inv → s.count + 1 = s.npix → t.run = 0 ∧ t.phase = .done)

/-- R91: a chunk step raises `Truncated` exactly when the tag byte is missing or the chunk does not lie
whole below `IN_LEN`. -/
def Obligations.TruncatedExactlyWhenTheChunkIsCut : Prop :=
  ∀ s : State, AtChunk s →
    ((∃ t, step s = .next t ∧ RaisedFrom .truncated s t) ↔
      s.inLen.toNat ≤ s.pos.toNat ∨
      s.inLen.toNat < s.pos.toNat + chunkLen (inByte s s.pos.toNat))

/-- A RUN chunk and its continuations emit the previous pixel exactly `n` times, read one byte, and
leave `RUN = 0`; a run of exactly the remaining pixels ends the call in DONE (R114 to R117). -/
def Obligations.RunEmitsExactlyNPixels : Prop :=
  ∀ (s : State) (n : Nat), AtChunk s → s.Inv → s.pos.toNat < s.inLen.toNat →
    1 ≤ n → n ≤ 62 → (inByte s s.pos.toNat).toNat = 0xC0 + (n - 1) →
    s.count.toNat + n ≤ s.npix.toNat →
    ∃ t, runSteps n s = .next t ∧ t.out = s.out ++ List.replicate n s.prev ∧
      t.count.toNat = s.count.toNat + n ∧ t.pos.toNat = s.pos.toNat + 1 ∧
      t.run = 0 ∧ t.prev = s.prev ∧
      (s.count.toNat + n = s.npix.toNat → t.phase = .done)

/-- R26: `CHANNELS` and `COLORSPACE` enter no pixel computation: with any other values in them a chunk
phase step does the same and leaves them alone. -/
def Obligations.ChannelCountSteersNoPixel : Prop :=
  ∀ (s : State) (c cs : Byte), s.phase = .chunk → s.moves = [] →
    ∃ t, step s = .next t ∧ t.channels = s.channels ∧ t.colorspace = s.colorspace ∧
      step { s with channels := c, colorspace := cs } =
        .next { t with channels := c, colorspace := cs }

/-! ## The whole machine -/

/-- R89: the decoder has exactly one enabled step in HEADER and in CHUNK, the header parse and the chunk
step, and none in IDLE, DONE and ERROR. No chunk, whatever its bytes, is refused (R100). -/
def Obligations.DecoderAlwaysStepsDuringACall : Prop :=
  ∀ s : State,
    (s.moves = [] → s.phase = .header → step s = .next (headerStep Config.zeroDimPolicy s)) ∧
    (s.moves = [] → s.phase = .chunk → step s = chunkStep s ∧ ∃ t, step s = .next t) ∧
    (s.phase = .idle ∨ s.phase = .done ∨ s.phase = .error → ∀ pol u, decoderStep pol s ≠ .next u)

/-- In IDLE, DONE and ERROR, with no move of the host, no agent has a step, which the model answers with
the fault `noStep` (log entry 4); a wait of the host then passes without effect (log entry 3). -/
def Obligations.NoStepOutsideACall : Prop :=
  ∀ s : State, s.phase = .idle ∨ s.phase = .done ∨ s.phase = .error →
    (s.moves = [] → step s = .fault .noStep) ∧
    (∀ later, s.moves = .wait :: later → step s = .next { s with moves := later })

/-- Which moves the host has still to make changes nothing in a step the decoder takes (R51; log
entry 3). -/
def Obligations.DecoderDoesNotSeeTheHostsMoves : Prop :=
  ∀ (s t : State) (later : List HostMove), s.phase.busy = true →
    step { s with moves := [] } = .next t →
    step { s with moves := .wait :: later } = .next { t with moves := later }

/-- R10, R118: a step that takes the machine to ERROR raised one error of the table and wrote only `ERR`
and `PHASE`; the host's wait that gave the decoder its turn is used up (log entry 3). -/
def Obligations.ErrorEntryWritesOnlyErrAndPhase : Prop :=
  ∀ s t : State, step s = .next t → s.phase ≠ .error → t.phase = .error →
    s.phase.busy = true ∧ ∃ e, RaisedFrom e { s with moves := s.moves.tail } t

/-- R130: in ERROR the decoder has no step, and the only ways out of it are an accepted START, which
clears `ERR`, and a hardware reset. -/
def Obligations.ErrorIsLeftByStartOrResetOnly : Prop :=
  ∀ s : State, s.phase = .error →
    (∀ pol u, decoderStep pol s ≠ .next u) ∧
    ∀ t, step s = .next t → t.phase ≠ .error →
      (StartNext s ∧ t.phase = .header ∧ t.err = 0) ∨ (ResetNext s ∧ t.phase = .idle ∧ t.err = 0)

/-- R52, R138: after DONE or ERROR the results keep their values until the next START or reset. -/
def Obligations.ResultsStayUntilStartOrReset : Prop :=
  ∀ s t : State, step s = .next t → s.phase = .done ∨ s.phase = .error →
    ¬ StartNext s → ¬ ResetNext s → SameOutcome s t

/-- R39 with R23, R25, R46, R98 and R124: the invariant holds after reset. -/
def Obligations.InvAtReset : Prop := State.reset.Inv

/-- R39 with R23, R25, R46, R98 and R124: every step keeps the invariant. -/
def Obligations.InvKeptByEveryStep : Prop :=
  ∀ s t : State, s.Inv → step s = .next t → t.Inv

/-- The spec's own R39.3 (`POS ≤ IN_LEN` between steps) holds after reset and is kept, in every phase, by
every step but one: a host write of `IN_LEN` outside a call, which R31 admits while `POS` keeps its value
(R52). Such a write after DONE can break it: why the invariant asks it during a call only (log entry
9). -/
def Obligations.PosMayPassInLenAfterACall : Prop :=
  State.reset.pos.toNat ≤ State.reset.inLen.toNat ∧
  (∀ s t : State, s.pos.toNat ≤ s.inLen.toNat → step s = .next t →
    t.pos.toNat ≤ t.inLen.toNat ∨
    (s.phase.busy = false ∧
      ∃ n v later, (n = 2 ∨ n = 3) ∧ s.moves = .writeReg n v :: later)) ∧
  (∃ (s t : State) (v : Word32) (later : List HostMove), s.Inv ∧ s.phase = .done ∧
    s.pos.toNat ≤ s.inLen.toNat ∧ s.moves = .writeReg 2 v :: later ∧ step s = .next t ∧
    t.Inv ∧ t.inLen.toNat < t.pos.toNat)

/-- R98: whatever the host does and whatever file it places, when a call is DONE, `OUT` holds exactly
`WIDTH × HEIGHT` pixels, one for every row and column. -/
def Obligations.DoneMeansExactlyWidthTimesHeight : Prop :=
  ∀ s : State, Reachable s → s.phase = .done →
    s.out.length = s.width.toNat * s.height.toNat ∧ s.count = s.npix ∧
    ∀ row column, row < s.height.toNat → column < s.width.toNat →
      (pixelAt s row column).isSome = true

/-- R97, R143: from the header step on, the decoder reaches DONE or ERROR within `1 + NPIX` steps. -/
def Obligations.CallEndsWithinItsBound : Prop :=
  ∀ s : State, s.Inv → AtHeader s →
    ∃ k t, runSteps k s = .next t ∧ t.ended ∧ k ≤ 1 + t.npix.toNat

/-- R99, R145: two calls started on the same file go through the same outcomes, step for step, whatever
went before them. -/
def Obligations.SameFileSameOutcome : Prop :=
  ∀ (s u : State) (v w : Word32), s.phase.busy = false → u.phase.busy = false →
    v.getLsbD 0 = true → w.getLsbD 0 = true →
    s.moves = [.writeReg 0 v] → u.moves = [.writeReg 0 w] → SameFile s u →
    ∀ k t, runSteps (k + 1) s = .next t →
      ∃ x, runSteps (k + 1) u = .next x ∧ SameOutcome t x

/-- R57: the bytes at and past `POS` at DONE are never read: with any others there, and all else the
same, the call runs the same way. -/
def Obligations.TrailingBytesAreNeverRead : Prop :=
  ∀ (s u t : State) (k : Nat), s.phase.busy = true → s.moves = [] → runSteps k s = .next t →
    t.phase = .done → u = { s with inBuf := u.inBuf } →
    (∀ a, a < t.pos.toNat → inByte u a = inByte s a) →
    ∃ x, runSteps k u = .next x ∧ SameOutcome t x
end

