-- ==== Sys2Proof/Laws/Decode.lean ====
section
/-! SUPPORT. The laws of the decoder: what a tag's kind and length are as numbers, and that a chunk with
all its bytes decodes to a well-formed instruction. -/

namespace Sys2Proof

@[simp] theorem inRange_iff (lo hi v : Int) : inRange lo hi v = true ↔ lo ≤ v ∧ v ≤ hi := by
  simp [inRange]

theorem byte_eq_iff (x y : Byte) : x = y ↔ x.toNat = y.toNat := BitVec.toNat_inj.symm

theorem byte_lt (x : Byte) : x.toNat < 256 := x.isLt

@[simp] theorem bits_7_6 (b : Byte) : bits b 7 6 = b.toNat / 64 := by
  have := byte_lt b
  simp only [bits]
  omega

@[simp] theorem bits_5_0 (b : Byte) : bits b 5 0 = b.toNat % 64 := by
  simp [bits]

@[simp] theorem bits_5_4 (b : Byte) : bits b 5 4 = b.toNat / 16 % 4 := by
  simp [bits]

@[simp] theorem bits_3_2 (b : Byte) : bits b 3 2 = b.toNat / 4 % 4 := by
  simp [bits]

@[simp] theorem bits_1_0 (b : Byte) : bits b 1 0 = b.toNat % 4 := by
  simp [bits]

@[simp] theorem bits_7_4 (b : Byte) : bits b 7 4 = b.toNat / 16 := by
  have := byte_lt b
  simp only [bits]
  omega

@[simp] theorem bits_3_0 (b : Byte) : bits b 3 0 = b.toNat % 16 := by
  simp [bits]

/-- `Kind(b0)` by the tag byte's number (R64). -/
theorem kindOf_toNat (b : Byte) :
    kindOf b =
      if b.toNat < 0x40 then .index
      else if b.toNat < 0x80 then .diff
      else if b.toNat < 0xC0 then .luma
      else if b.toNat < 0xFE then .run
      else if b.toNat = 0xFE then .rgb
      else .rgba := by
  have h := byte_lt b
  simp only [kindOf, byte_eq_iff, bits_7_6]
  simp only [show (0xFE : Byte).toNat = 254 from rfl, show (0xFF : Byte).toNat = 255 from rfl]
  split_ifs <;> first | rfl | omega

/-- `Len(b0)` by the tag's kind (R62). -/
theorem chunkLen_kind (b : Byte) :
    chunkLen b =
      match kindOf b with
      | .rgb => 4
      | .rgba => 5
      | .index => 1
      | .diff => 1
      | .luma => 2
      | .run => 1 := by
  have h := byte_lt b
  simp only [chunkLen, kindOf, byte_eq_iff, bits_7_6]
  split_ifs <;> first | rfl | omega

theorem chunkLen_pos (b : Byte) : 1 ≤ chunkLen b := by
  rw [chunkLen_kind]
  split <;> omega

theorem chunkLen_le (b : Byte) : chunkLen b ≤ longestChunk := by
  rw [chunkLen_kind, longestChunk]
  split <;> omega

/-- A chunk with all its payload bytes decodes, and what follows it is left (R74, R100). -/
theorem decode_whole (b0 : Byte) (pay after : List Byte) (h : pay.length + 1 = chunkLen b0) :
    ∃ i, decode (b0 :: (pay ++ after)) = .ok (i, after) := by
  rw [chunkLen_kind] at h
  cases hk : kindOf b0 <;> simp only [hk] at h <;> simp only [decode, hk]
  · match pay, h with
    | [r, g, b], _ => exact ⟨_, rfl⟩
  · match pay, h with
    | [r, g, b, a], _ => exact ⟨_, rfl⟩
  · match pay, h with
    | [], _ => exact ⟨_, rfl⟩
  · match pay, h with
    | [], _ => exact ⟨_, rfl⟩
  · match pay, h with
    | [b1], _ => exact ⟨_, rfl⟩
  · match pay, h with
    | [], _ => exact ⟨_, rfl⟩

/-- What a byte string that decodes looks like: a tag byte, its payload, and what follows. -/
theorem decode_cases {bytes after : List Byte} {i : Instr} (h : decode bytes = .ok (i, after)) :
    ∃ b0, (∃ r g b, kindOf b0 = .rgb ∧ bytes = b0 :: r :: g :: b :: after ∧ i = .rgb r g b) ∨
      (∃ r g b a, kindOf b0 = .rgba ∧ bytes = b0 :: r :: g :: b :: a :: after ∧ i = .rgba r g b a) ∨
      (kindOf b0 = .index ∧ bytes = b0 :: after ∧ i = decodeIndex b0) ∨
      (kindOf b0 = .diff ∧ bytes = b0 :: after ∧ i = decodeDiff b0) ∨
      (∃ b1, kindOf b0 = .luma ∧ bytes = b0 :: b1 :: after ∧ i = decodeLuma b0 b1) ∨
      (kindOf b0 = .run ∧ bytes = b0 :: after ∧ i = decodeRun b0) := by
  cases bytes with
  | nil => simp [decode] at h
  | cons b0 rest =>
    refine ⟨b0, ?_⟩
    cases hk : kindOf b0 <;> simp only [decode, hk] at h
    · match rest, h with
      | r :: g :: b :: rest', h =>
        simp only [Except.ok.injEq, Prod.mk.injEq] at h
        exact .inl ⟨r, g, b, rfl, by rw [h.2], h.1.symm⟩
    · match rest, h with
      | r :: g :: b :: a :: rest', h =>
        simp only [Except.ok.injEq, Prod.mk.injEq] at h
        exact .inr (.inl ⟨r, g, b, a, rfl, by rw [h.2], h.1.symm⟩)
    · simp only [Except.ok.injEq, Prod.mk.injEq] at h
      exact .inr (.inr (.inl ⟨rfl, by rw [h.2], h.1.symm⟩))
    · simp only [Except.ok.injEq, Prod.mk.injEq] at h
      exact .inr (.inr (.inr (.inl ⟨rfl, by rw [h.2], h.1.symm⟩)))
    · match rest, h with
      | b1 :: rest', h =>
        simp only [Except.ok.injEq, Prod.mk.injEq] at h
        exact .inr (.inr (.inr (.inr (.inl ⟨b1, rfl, by rw [h.2], h.1.symm⟩))))
    · simp only [Except.ok.injEq, Prod.mk.injEq] at h
      exact .inr (.inr (.inr (.inr (.inr ⟨rfl, by rw [h.2], h.1.symm⟩))))

/-- A decoded RUN has a length the counter can hold (R66, R113). -/
theorem decode_run_range {bytes after : List Byte} {n : Nat}
    (h : decode bytes = .ok (.run n, after)) : 1 ≤ n ∧ n ≤ Config.runMax := by
  obtain ⟨b0, h⟩ := decode_cases h
  rcases h with ⟨_, _, _, _, _, h⟩ | ⟨_, _, _, _, _, _, h⟩ | ⟨_, _, h⟩ | ⟨_, _, h⟩ | ⟨_, _, _, h⟩ |
    ⟨hk, _, h⟩
  · cases h
  · cases h
  · simp [decodeIndex] at h
  · simp [decodeDiff] at h
  · simp [decodeLuma] at h
  · simp only [decodeRun, Instr.run.injEq, bits_5_0] at h
    rw [kindOf_toNat] at hk
    have := byte_lt b0
    split_ifs at hk
    simp only [Config.runMax]
    omega

end Sys2Proof
end

