-- ==== Sys2Proof/Laws/Memory.lean ====
section
/-! SUPPORT. The laws of the input buffer: a byte placed is read back, every other offset reads as
before, and every operation keeps the canonical form. -/

namespace Sys2Proof.Machine

/-- What is listed after a byte has been placed. -/
theorem lookupCell_insertCell (a b : Nat) (v : Byte) (cells : List Host.Cell) (lo : Nat)
    (h : risingFrom lo cells = true) :
    lookupCell b (insertCell a v cells) = if a = b then some v else lookupCell b cells := by
  induction cells generalizing lo with
  | nil => simp [insertCell, lookupCell]
  | cons c rest ih =>
    obtain ⟨k, u⟩ := c
    simp only [risingFrom, Bool.and_eq_true, decide_eq_true_eq] at h
    have hr := ih (k + 1) h.2
    simp only [insertCell]
    split
    · simp only [lookupCell]
    · split
      · rename_i hk
        subst hk
        simp only [lookupCell]
        split <;> rfl
      · simp only [lookupCell, hr]
        by_cases hb : k = b <;> by_cases hab : a = b <;> simp_all

/-- Placing a byte keeps the offsets rising. -/
theorem risingFrom_insertCell (a : Nat) (v : Byte) (cells : List Host.Cell) (lo : Nat)
    (h : risingFrom lo cells = true) (ha : lo ≤ a) : risingFrom lo (insertCell a v cells) = true := by
  induction cells generalizing lo with
  | nil => simp [insertCell, risingFrom, ha]
  | cons c rest ih =>
    obtain ⟨k, u⟩ := c
    simp only [risingFrom, Bool.and_eq_true, decide_eq_true_eq] at h
    simp only [insertCell]
    split
    · simp only [risingFrom, Bool.and_eq_true, decide_eq_true_eq]
      exact ⟨ha, by omega, h.2⟩
    · split
      · rename_i hk
        subst hk
        simp only [risingFrom, Bool.and_eq_true, decide_eq_true_eq]
        exact h
      · simp only [risingFrom, Bool.and_eq_true, decide_eq_true_eq]
        exact ⟨h.1, ih (k + 1) h.2 (by omega)⟩

theorem all_insertCell (f : Host.Cell → Bool) (a : Nat) (v : Byte) (cells : List Host.Cell)
    (h : cells.all f = true) (ha : f (a, v) = true) : (insertCell a v cells).all f = true := by
  induction cells with
  | nil => simpa [insertCell] using ha
  | cons c rest ih =>
    obtain ⟨k, u⟩ := c
    simp only [List.all_cons, Bool.and_eq_true] at h
    simp only [insertCell]
    split
    · simp [h, ha]
    · split
      · simp [h, ha]
      · simp [h, ih h.2]

theorem Memory.wf_empty : (⟨[]⟩ : Memory).wf = true := rfl

/-- Placing a byte at an offset `IN` can have keeps the canonical form. -/
theorem Memory.wf_write (m : Memory) (a : Nat) (v : Byte) (h : m.wf = true)
    (ha : a < Config.inputOffsets) : (m.write a v).wf = true := by
  simp only [Memory.wf, Bool.and_eq_true] at h ⊢
  exact ⟨risingFrom_insertCell a v m.cells 0 h.1 (Nat.zero_le a),
    all_insertCell _ a v m.cells h.2 (by simpa using ha)⟩

/-- A byte placed is read back, and every other offset reads as before. -/
theorem Memory.read_write (m : Memory) (a b : Nat) (v : Byte) (h : m.wf = true) :
    (m.write a v).read b = if a = b then some v else m.read b := by
  simp only [Memory.wf, Bool.and_eq_true] at h
  exact lookupCell_insertCell a b v m.cells 0 h.1

/-- Placing bytes at offsets `IN` can have keeps the canonical form. -/
theorem Memory.wf_writeBytes (m : Memory) (a : Nat) (bytes : List Byte) (h : m.wf = true)
    (ha : a + bytes.length ≤ Config.inputOffsets) : (m.writeBytes a bytes).wf = true := by
  induction bytes generalizing m a with
  | nil => exact h
  | cons v rest ih =>
    simp only [List.length_cons] at ha
    exact ih (m.write a v) (a + 1) (m.wf_write a v h (by omega)) (by omega)

/-- An offset outside the bytes placed reads as before. -/
theorem Memory.read_writeBytes_outside (m : Memory) (a b : Nat) (bytes : List Byte)
    (h : m.wf = true) (ha : a + bytes.length ≤ Config.inputOffsets)
    (hb : b < a ∨ a + bytes.length ≤ b) : (m.writeBytes a bytes).read b = m.read b := by
  induction bytes generalizing m a with
  | nil => rfl
  | cons v rest ih =>
    simp only [List.length_cons] at ha hb
    have step := ih (m.write a v) (a + 1) (m.wf_write a v h (by omega)) (by omega) (by omega)
    rw [Memory.writeBytes, step, m.read_write a b v h, if_neg (by omega)]

/-- Byte `k` of the bytes placed is read back at its offset. -/
theorem Memory.read_writeBytes_inside (m : Memory) (a k : Nat) (bytes : List Byte)
    (h : m.wf = true) (ha : a + bytes.length ≤ Config.inputOffsets) (hk : k < bytes.length) :
    (m.writeBytes a bytes).read (a + k) = some bytes[k] := by
  induction bytes generalizing m a k with
  | nil => simp at hk
  | cons v rest ih =>
    simp only [List.length_cons] at ha hk
    have hw := m.wf_write a v h (by omega)
    cases k with
    | zero =>
      rw [Memory.writeBytes,
        Memory.read_writeBytes_outside _ (a + 1) (a + 0) rest hw (by omega) (by omega),
        m.read_write a (a + 0) v h]
      simp
    | succ k =>
      have := ih (m.write a v) (a + 1) k hw (by omega) (by omega)
      rw [Memory.writeBytes, show a + (k + 1) = a + 1 + k by omega, this]
      simp

/-! ## Reading through a state -/

/-- What `IN` reads as depends on the listed bytes only. -/
theorem inByte_congr {s t : State} (h : t.inBuf = s.inBuf) (a : Nat) : inByte t a = inByte s a := by
  simp only [inByte, h]

/-- `MemRead` of two states whose bytes agree. -/
theorem memRead_congr {s t : State} (addr n : Nat)
    (h : ∀ a, addr ≤ a → a < addr + n → inByte t a = inByte s a) :
    memRead t addr n = memRead s addr n := by
  induction n generalizing addr with
  | zero => rfl
  | succ n ih =>
    rw [memRead, memRead, h addr (by omega) (by omega), ih (addr + 1)]
    exact fun a h1 h2 => h a (by omega) (by omega)

@[simp] theorem memRead_length (s : State) (addr n : Nat) : (memRead s addr n).length = n := by
  induction n generalizing addr with
  | zero => rfl
  | succ n ih => simp [memRead, ih]

/-- `BE32` of two states whose bytes agree. -/
theorem be32_congr {s t : State} (addr : Nat)
    (h : ∀ a, addr ≤ a → a < addr + 4 → inByte t a = inByte s a) : be32 t addr = be32 s addr := by
  simp only [be32, h addr (by omega) (by omega), h (addr + 1) (by omega) (by omega),
    h (addr + 2) (by omega) (by omega), h (addr + 3) (by omega) (by omega)]

/-- `BE32` as a number: `IN[addr]` is bits 31:24 (R45). -/
theorem be32_toNat (s : State) (addr : Nat) :
    (be32 s addr).toNat =
      (inByte s addr).toNat * 2 ^ 24 + (inByte s (addr + 1)).toNat * 2 ^ 16 +
        (inByte s (addr + 2)).toNat * 2 ^ 8 + (inByte s (addr + 3)).toNat := by
  have join : ∀ {n : Nat} (x : BitVec n) (y : Byte), (x ++ y).toNat = x.toNat * 2 ^ 8 + y.toNat := by
    intro n x y
    rw [BitVec.toNat_append, Nat.shiftLeft_eq, Nat.mul_comm,
      Nat.two_pow_add_eq_or_of_lt y.isLt]
  simp only [be32, join]
  omega

end Sys2Proof.Machine
end

