-- ==== Sys2Proof/Laws/State.lean ====
section
/-! SUPPORT. What each update of the state leaves in each field: one lemma per field per update, true by
`rfl`, so that no later proof unfolds a record update. -/

namespace Sys2Proof.Machine


/-! ## `emit` -/

@[simp] theorem emit_prev (p : Pixel) (s : State) :
    (emit p s).prev = s.prev := rfl
@[simp] theorem emit_cache (p : Pixel) (s : State) :
    (emit p s).cache = s.cache := rfl
@[simp] theorem emit_run (p : Pixel) (s : State) :
    (emit p s).run = s.run := rfl
@[simp] theorem emit_pos (p : Pixel) (s : State) :
    (emit p s).pos = s.pos := rfl
@[simp] theorem emit_npix (p : Pixel) (s : State) :
    (emit p s).npix = s.npix := rfl
@[simp] theorem emit_count (p : Pixel) (s : State) :
    (emit p s).count = s.count + 1 := rfl
@[simp] theorem emit_phase (p : Pixel) (s : State) :
    (emit p s).phase = if s.count + 1 = s.npix then .done else s.phase := rfl
@[simp] theorem emit_err (p : Pixel) (s : State) :
    (emit p s).err = s.err := rfl
@[simp] theorem emit_magic (p : Pixel) (s : State) :
    (emit p s).magic = s.magic := rfl
@[simp] theorem emit_width (p : Pixel) (s : State) :
    (emit p s).width = s.width := rfl
@[simp] theorem emit_height (p : Pixel) (s : State) :
    (emit p s).height = s.height := rfl
@[simp] theorem emit_channels (p : Pixel) (s : State) :
    (emit p s).channels = s.channels := rfl
@[simp] theorem emit_colorspace (p : Pixel) (s : State) :
    (emit p s).colorspace = s.colorspace := rfl
@[simp] theorem emit_hdrValid (p : Pixel) (s : State) :
    (emit p s).hdrValid = s.hdrValid := rfl
@[simp] theorem emit_inLen (p : Pixel) (s : State) :
    (emit p s).inLen = s.inLen := rfl
@[simp] theorem emit_inBuf (p : Pixel) (s : State) :
    (emit p s).inBuf = s.inBuf := rfl
@[simp] theorem emit_out (p : Pixel) (s : State) :
    (emit p s).out = s.out ++ [p] := rfl
@[simp] theorem emit_moves (p : Pixel) (s : State) :
    (emit p s).moves = s.moves := rfl
@[simp] theorem emit_replies (p : Pixel) (s : State) :
    (emit p s).replies = s.replies := rfl
@[simp] theorem inByte_emit (p : Pixel) (s : State) (a : Nat) :
    inByte (emit p s) a = inByte s a := rfl

/-! ## `cachePut` -/

@[simp] theorem cachePut_prev (p : Pixel) (s : State) :
    (cachePut p s).prev = s.prev := rfl
@[simp] theorem cachePut_cache (p : Pixel) (s : State) :
    (cachePut p s).cache = s.cache.set (pixelHash p).val p (pixelHash p).isLt := rfl
@[simp] theorem cachePut_run (p : Pixel) (s : State) :
    (cachePut p s).run = s.run := rfl
@[simp] theorem cachePut_pos (p : Pixel) (s : State) :
    (cachePut p s).pos = s.pos := rfl
@[simp] theorem cachePut_npix (p : Pixel) (s : State) :
    (cachePut p s).npix = s.npix := rfl
@[simp] theorem cachePut_count (p : Pixel) (s : State) :
    (cachePut p s).count = s.count := rfl
@[simp] theorem cachePut_phase (p : Pixel) (s : State) :
    (cachePut p s).phase = s.phase := rfl
@[simp] theorem cachePut_err (p : Pixel) (s : State) :
    (cachePut p s).err = s.err := rfl
@[simp] theorem cachePut_magic (p : Pixel) (s : State) :
    (cachePut p s).magic = s.magic := rfl
@[simp] theorem cachePut_width (p : Pixel) (s : State) :
    (cachePut p s).width = s.width := rfl
@[simp] theorem cachePut_height (p : Pixel) (s : State) :
    (cachePut p s).height = s.height := rfl
@[simp] theorem cachePut_channels (p : Pixel) (s : State) :
    (cachePut p s).channels = s.channels := rfl
@[simp] theorem cachePut_colorspace (p : Pixel) (s : State) :
    (cachePut p s).colorspace = s.colorspace := rfl
@[simp] theorem cachePut_hdrValid (p : Pixel) (s : State) :
    (cachePut p s).hdrValid = s.hdrValid := rfl
@[simp] theorem cachePut_inLen (p : Pixel) (s : State) :
    (cachePut p s).inLen = s.inLen := rfl
@[simp] theorem cachePut_inBuf (p : Pixel) (s : State) :
    (cachePut p s).inBuf = s.inBuf := rfl
@[simp] theorem cachePut_out (p : Pixel) (s : State) :
    (cachePut p s).out = s.out := rfl
@[simp] theorem cachePut_moves (p : Pixel) (s : State) :
    (cachePut p s).moves = s.moves := rfl
@[simp] theorem cachePut_replies (p : Pixel) (s : State) :
    (cachePut p s).replies = s.replies := rfl
@[simp] theorem inByte_cachePut (p : Pixel) (s : State) (a : Nat) :
    inByte (cachePut p s) a = inByte s a := rfl

/-! ## `advance` -/

@[simp] theorem advance_prev (p : Pixel) (n : Nat) (s : State) :
    (advance p n s).prev = p := rfl
@[simp] theorem advance_cache (p : Pixel) (n : Nat) (s : State) :
    (advance p n s).cache = s.cache := rfl
@[simp] theorem advance_run (p : Pixel) (n : Nat) (s : State) :
    (advance p n s).run = s.run := rfl
@[simp] theorem advance_pos (p : Pixel) (n : Nat) (s : State) :
    (advance p n s).pos = s.pos + BitVec.ofNat 64 n := rfl
@[simp] theorem advance_npix (p : Pixel) (n : Nat) (s : State) :
    (advance p n s).npix = s.npix := rfl
@[simp] theorem advance_count (p : Pixel) (n : Nat) (s : State) :
    (advance p n s).count = s.count + 1 := rfl
@[simp] theorem advance_phase (p : Pixel) (n : Nat) (s : State) :
    (advance p n s).phase = if s.count + 1 = s.npix then .done else s.phase := rfl
@[simp] theorem advance_err (p : Pixel) (n : Nat) (s : State) :
    (advance p n s).err = s.err := rfl
@[simp] theorem advance_magic (p : Pixel) (n : Nat) (s : State) :
    (advance p n s).magic = s.magic := rfl
@[simp] theorem advance_width (p : Pixel) (n : Nat) (s : State) :
    (advance p n s).width = s.width := rfl
@[simp] theorem advance_height (p : Pixel) (n : Nat) (s : State) :
    (advance p n s).height = s.height := rfl
@[simp] theorem advance_channels (p : Pixel) (n : Nat) (s : State) :
    (advance p n s).channels = s.channels := rfl
@[simp] theorem advance_colorspace (p : Pixel) (n : Nat) (s : State) :
    (advance p n s).colorspace = s.colorspace := rfl
@[simp] theorem advance_hdrValid (p : Pixel) (n : Nat) (s : State) :
    (advance p n s).hdrValid = s.hdrValid := rfl
@[simp] theorem advance_inLen (p : Pixel) (n : Nat) (s : State) :
    (advance p n s).inLen = s.inLen := rfl
@[simp] theorem advance_inBuf (p : Pixel) (n : Nat) (s : State) :
    (advance p n s).inBuf = s.inBuf := rfl
@[simp] theorem advance_out (p : Pixel) (n : Nat) (s : State) :
    (advance p n s).out = s.out ++ [p] := rfl
@[simp] theorem advance_moves (p : Pixel) (n : Nat) (s : State) :
    (advance p n s).moves = s.moves := rfl
@[simp] theorem advance_replies (p : Pixel) (n : Nat) (s : State) :
    (advance p n s).replies = s.replies := rfl
@[simp] theorem inByte_advance (p : Pixel) (n : Nat) (s : State) (a : Nat) :
    inByte (advance p n s) a = inByte s a := rfl

/-! ## `finishChunk` -/

@[simp] theorem finishChunk_prev (p : Pixel) (n : Nat) (s : State) :
    (finishChunk p n s).prev = p := rfl
@[simp] theorem finishChunk_cache (p : Pixel) (n : Nat) (s : State) :
    (finishChunk p n s).cache = s.cache.set (pixelHash p).val p (pixelHash p).isLt := rfl
@[simp] theorem finishChunk_run (p : Pixel) (n : Nat) (s : State) :
    (finishChunk p n s).run = s.run := rfl
@[simp] theorem finishChunk_pos (p : Pixel) (n : Nat) (s : State) :
    (finishChunk p n s).pos = s.pos + BitVec.ofNat 64 n := rfl
@[simp] theorem finishChunk_npix (p : Pixel) (n : Nat) (s : State) :
    (finishChunk p n s).npix = s.npix := rfl
@[simp] theorem finishChunk_count (p : Pixel) (n : Nat) (s : State) :
    (finishChunk p n s).count = s.count + 1 := rfl
@[simp] theorem finishChunk_phase (p : Pixel) (n : Nat) (s : State) :
    (finishChunk p n s).phase = if s.count + 1 = s.npix then .done else s.phase := rfl
@[simp] theorem finishChunk_err (p : Pixel) (n : Nat) (s : State) :
    (finishChunk p n s).err = s.err := rfl
@[simp] theorem finishChunk_magic (p : Pixel) (n : Nat) (s : State) :
    (finishChunk p n s).magic = s.magic := rfl
@[simp] theorem finishChunk_width (p : Pixel) (n : Nat) (s : State) :
    (finishChunk p n s).width = s.width := rfl
@[simp] theorem finishChunk_height (p : Pixel) (n : Nat) (s : State) :
    (finishChunk p n s).height = s.height := rfl
@[simp] theorem finishChunk_channels (p : Pixel) (n : Nat) (s : State) :
    (finishChunk p n s).channels = s.channels := rfl
@[simp] theorem finishChunk_colorspace (p : Pixel) (n : Nat) (s : State) :
    (finishChunk p n s).colorspace = s.colorspace := rfl
@[simp] theorem finishChunk_hdrValid (p : Pixel) (n : Nat) (s : State) :
    (finishChunk p n s).hdrValid = s.hdrValid := rfl
@[simp] theorem finishChunk_inLen (p : Pixel) (n : Nat) (s : State) :
    (finishChunk p n s).inLen = s.inLen := rfl
@[simp] theorem finishChunk_inBuf (p : Pixel) (n : Nat) (s : State) :
    (finishChunk p n s).inBuf = s.inBuf := rfl
@[simp] theorem finishChunk_out (p : Pixel) (n : Nat) (s : State) :
    (finishChunk p n s).out = s.out ++ [p] := rfl
@[simp] theorem finishChunk_moves (p : Pixel) (n : Nat) (s : State) :
    (finishChunk p n s).moves = s.moves := rfl
@[simp] theorem finishChunk_replies (p : Pixel) (n : Nat) (s : State) :
    (finishChunk p n s).replies = s.replies := rfl
@[simp] theorem inByte_finishChunk (p : Pixel) (n : Nat) (s : State) (a : Nat) :
    inByte (finishChunk p n s) a = inByte s a := rfl

/-! ## `raiseError` -/

@[simp] theorem raiseError_prev (e : FormatError) (s : State) :
    (raiseError e s).prev = s.prev := rfl
@[simp] theorem raiseError_cache (e : FormatError) (s : State) :
    (raiseError e s).cache = s.cache := rfl
@[simp] theorem raiseError_run (e : FormatError) (s : State) :
    (raiseError e s).run = s.run := rfl
@[simp] theorem raiseError_pos (e : FormatError) (s : State) :
    (raiseError e s).pos = s.pos := rfl
@[simp] theorem raiseError_npix (e : FormatError) (s : State) :
    (raiseError e s).npix = s.npix := rfl
@[simp] theorem raiseError_count (e : FormatError) (s : State) :
    (raiseError e s).count = s.count := rfl
@[simp] theorem raiseError_phase (e : FormatError) (s : State) :
    (raiseError e s).phase = .error := rfl
@[simp] theorem raiseError_err (e : FormatError) (s : State) :
    (raiseError e s).err = e.code := rfl
@[simp] theorem raiseError_magic (e : FormatError) (s : State) :
    (raiseError e s).magic = s.magic := rfl
@[simp] theorem raiseError_width (e : FormatError) (s : State) :
    (raiseError e s).width = s.width := rfl
@[simp] theorem raiseError_height (e : FormatError) (s : State) :
    (raiseError e s).height = s.height := rfl
@[simp] theorem raiseError_channels (e : FormatError) (s : State) :
    (raiseError e s).channels = s.channels := rfl
@[simp] theorem raiseError_colorspace (e : FormatError) (s : State) :
    (raiseError e s).colorspace = s.colorspace := rfl
@[simp] theorem raiseError_hdrValid (e : FormatError) (s : State) :
    (raiseError e s).hdrValid = s.hdrValid := rfl
@[simp] theorem raiseError_inLen (e : FormatError) (s : State) :
    (raiseError e s).inLen = s.inLen := rfl
@[simp] theorem raiseError_inBuf (e : FormatError) (s : State) :
    (raiseError e s).inBuf = s.inBuf := rfl
@[simp] theorem raiseError_out (e : FormatError) (s : State) :
    (raiseError e s).out = s.out := rfl
@[simp] theorem raiseError_moves (e : FormatError) (s : State) :
    (raiseError e s).moves = s.moves := rfl
@[simp] theorem raiseError_replies (e : FormatError) (s : State) :
    (raiseError e s).replies = s.replies := rfl
@[simp] theorem inByte_raiseError (e : FormatError) (s : State) (a : Nat) :
    inByte (raiseError e s) a = inByte s a := rfl

/-! ## `startCall` -/

@[simp] theorem startCall_prev (s : State) :
    (startCall s).prev = Pixel.opaqueBlack := rfl
@[simp] theorem startCall_cache (s : State) :
    (startCall s).cache = Vector.replicate 64 Pixel.clear := rfl
@[simp] theorem startCall_run (s : State) :
    (startCall s).run = 0 := rfl
@[simp] theorem startCall_pos (s : State) :
    (startCall s).pos = 0 := rfl
@[simp] theorem startCall_npix (s : State) :
    (startCall s).npix = 0 := rfl
@[simp] theorem startCall_count (s : State) :
    (startCall s).count = 0 := rfl
@[simp] theorem startCall_phase (s : State) :
    (startCall s).phase = .header := rfl
@[simp] theorem startCall_err (s : State) :
    (startCall s).err = 0 := rfl
@[simp] theorem startCall_magic (s : State) :
    (startCall s).magic = 0 := rfl
@[simp] theorem startCall_width (s : State) :
    (startCall s).width = 0 := rfl
@[simp] theorem startCall_height (s : State) :
    (startCall s).height = 0 := rfl
@[simp] theorem startCall_channels (s : State) :
    (startCall s).channels = 0 := rfl
@[simp] theorem startCall_colorspace (s : State) :
    (startCall s).colorspace = 0 := rfl
@[simp] theorem startCall_hdrValid (s : State) :
    (startCall s).hdrValid = false := rfl
@[simp] theorem startCall_inLen (s : State) :
    (startCall s).inLen = s.inLen := rfl
@[simp] theorem startCall_inBuf (s : State) :
    (startCall s).inBuf = s.inBuf := rfl
@[simp] theorem startCall_out (s : State) :
    (startCall s).out = [] := rfl
@[simp] theorem startCall_moves (s : State) :
    (startCall s).moves = s.moves := rfl
@[simp] theorem startCall_replies (s : State) :
    (startCall s).replies = s.replies := rfl
@[simp] theorem inByte_startCall (s : State) (a : Nat) :
    inByte (startCall s) a = inByte s a := rfl

/-! ## `hardwareReset` -/

@[simp] theorem hardwareReset_prev (s : State) :
    (hardwareReset s).prev = Pixel.opaqueBlack := rfl
@[simp] theorem hardwareReset_cache (s : State) :
    (hardwareReset s).cache = Vector.replicate 64 Pixel.clear := rfl
@[simp] theorem hardwareReset_run (s : State) :
    (hardwareReset s).run = 0 := rfl
@[simp] theorem hardwareReset_pos (s : State) :
    (hardwareReset s).pos = 0 := rfl
@[simp] theorem hardwareReset_npix (s : State) :
    (hardwareReset s).npix = 0 := rfl
@[simp] theorem hardwareReset_count (s : State) :
    (hardwareReset s).count = 0 := rfl
@[simp] theorem hardwareReset_phase (s : State) :
    (hardwareReset s).phase = .idle := rfl
@[simp] theorem hardwareReset_err (s : State) :
    (hardwareReset s).err = 0 := rfl
@[simp] theorem hardwareReset_magic (s : State) :
    (hardwareReset s).magic = 0 := rfl
@[simp] theorem hardwareReset_width (s : State) :
    (hardwareReset s).width = 0 := rfl
@[simp] theorem hardwareReset_height (s : State) :
    (hardwareReset s).height = 0 := rfl
@[simp] theorem hardwareReset_channels (s : State) :
    (hardwareReset s).channels = 0 := rfl
@[simp] theorem hardwareReset_colorspace (s : State) :
    (hardwareReset s).colorspace = 0 := rfl
@[simp] theorem hardwareReset_hdrValid (s : State) :
    (hardwareReset s).hdrValid = false := rfl
@[simp] theorem hardwareReset_inLen (s : State) :
    (hardwareReset s).inLen = 0 := rfl
@[simp] theorem hardwareReset_inBuf (s : State) :
    (hardwareReset s).inBuf = s.inBuf := rfl
@[simp] theorem hardwareReset_out (s : State) :
    (hardwareReset s).out = [] := rfl
@[simp] theorem hardwareReset_moves (s : State) :
    (hardwareReset s).moves = s.moves := rfl
@[simp] theorem hardwareReset_replies (s : State) :
    (hardwareReset s).replies = s.replies := rfl
@[simp] theorem inByte_hardwareReset (s : State) (a : Nat) :
    inByte (hardwareReset s) a = inByte s a := rfl

/-! ## `loadRun` -/

@[simp] theorem loadRun_prev (n : Nat) (s : State) :
    (loadRun n s).prev = s.prev := rfl
@[simp] theorem loadRun_cache (n : Nat) (s : State) :
    (loadRun n s).cache = s.cache := rfl
@[simp] theorem loadRun_run (n : Nat) (s : State) :
    (loadRun n s).run = BitVec.ofNat 6 (n - 1) := rfl
@[simp] theorem loadRun_pos (n : Nat) (s : State) :
    (loadRun n s).pos = s.pos := rfl
@[simp] theorem loadRun_npix (n : Nat) (s : State) :
    (loadRun n s).npix = s.npix := rfl
@[simp] theorem loadRun_count (n : Nat) (s : State) :
    (loadRun n s).count = s.count := rfl
@[simp] theorem loadRun_phase (n : Nat) (s : State) :
    (loadRun n s).phase = s.phase := rfl
@[simp] theorem loadRun_err (n : Nat) (s : State) :
    (loadRun n s).err = s.err := rfl
@[simp] theorem loadRun_magic (n : Nat) (s : State) :
    (loadRun n s).magic = s.magic := rfl
@[simp] theorem loadRun_width (n : Nat) (s : State) :
    (loadRun n s).width = s.width := rfl
@[simp] theorem loadRun_height (n : Nat) (s : State) :
    (loadRun n s).height = s.height := rfl
@[simp] theorem loadRun_channels (n : Nat) (s : State) :
    (loadRun n s).channels = s.channels := rfl
@[simp] theorem loadRun_colorspace (n : Nat) (s : State) :
    (loadRun n s).colorspace = s.colorspace := rfl
@[simp] theorem loadRun_hdrValid (n : Nat) (s : State) :
    (loadRun n s).hdrValid = s.hdrValid := rfl
@[simp] theorem loadRun_inLen (n : Nat) (s : State) :
    (loadRun n s).inLen = s.inLen := rfl
@[simp] theorem loadRun_inBuf (n : Nat) (s : State) :
    (loadRun n s).inBuf = s.inBuf := rfl
@[simp] theorem loadRun_out (n : Nat) (s : State) :
    (loadRun n s).out = s.out := rfl
@[simp] theorem loadRun_moves (n : Nat) (s : State) :
    (loadRun n s).moves = s.moves := rfl
@[simp] theorem loadRun_replies (n : Nat) (s : State) :
    (loadRun n s).replies = s.replies := rfl
@[simp] theorem inByte_loadRun (n : Nat) (s : State) (a : Nat) :
    inByte (loadRun n s) a = inByte s a := rfl

/-! ## `runContinue` -/

@[simp] theorem runContinue_prev (s : State) :
    (runContinue s).prev = s.prev := rfl
@[simp] theorem runContinue_cache (s : State) :
    (runContinue s).cache = s.cache := rfl
@[simp] theorem runContinue_run (s : State) :
    (runContinue s).run = s.run - 1 := rfl
@[simp] theorem runContinue_pos (s : State) :
    (runContinue s).pos = s.pos := rfl
@[simp] theorem runContinue_npix (s : State) :
    (runContinue s).npix = s.npix := rfl
@[simp] theorem runContinue_count (s : State) :
    (runContinue s).count = s.count + 1 := rfl
@[simp] theorem runContinue_phase (s : State) :
    (runContinue s).phase = if s.count + 1 = s.npix then .done else s.phase := rfl
@[simp] theorem runContinue_err (s : State) :
    (runContinue s).err = s.err := rfl
@[simp] theorem runContinue_magic (s : State) :
    (runContinue s).magic = s.magic := rfl
@[simp] theorem runContinue_width (s : State) :
    (runContinue s).width = s.width := rfl
@[simp] theorem runContinue_height (s : State) :
    (runContinue s).height = s.height := rfl
@[simp] theorem runContinue_channels (s : State) :
    (runContinue s).channels = s.channels := rfl
@[simp] theorem runContinue_colorspace (s : State) :
    (runContinue s).colorspace = s.colorspace := rfl
@[simp] theorem runContinue_hdrValid (s : State) :
    (runContinue s).hdrValid = s.hdrValid := rfl
@[simp] theorem runContinue_inLen (s : State) :
    (runContinue s).inLen = s.inLen := rfl
@[simp] theorem runContinue_inBuf (s : State) :
    (runContinue s).inBuf = s.inBuf := rfl
@[simp] theorem runContinue_out (s : State) :
    (runContinue s).out = s.out ++ [s.prev] := rfl
@[simp] theorem runContinue_moves (s : State) :
    (runContinue s).moves = s.moves := rfl
@[simp] theorem runContinue_replies (s : State) :
    (runContinue s).replies = s.replies := rfl
@[simp] theorem inByte_runContinue (s : State) (a : Nat) :
    inByte (runContinue s) a = inByte s a := rfl

/-! ## `latchHeader` -/

@[simp] theorem latchHeader_prev (m w h : Word32) (c cs : Byte) (s : State) :
    (latchHeader m w h c cs s).prev = s.prev := rfl
@[simp] theorem latchHeader_cache (m w h : Word32) (c cs : Byte) (s : State) :
    (latchHeader m w h c cs s).cache = s.cache := rfl
@[simp] theorem latchHeader_run (m w h : Word32) (c cs : Byte) (s : State) :
    (latchHeader m w h c cs s).run = s.run := rfl
@[simp] theorem latchHeader_pos (m w h : Word32) (c cs : Byte) (s : State) :
    (latchHeader m w h c cs s).pos = 14 := rfl
@[simp] theorem latchHeader_npix (m w h : Word32) (c cs : Byte) (s : State) :
    (latchHeader m w h c cs s).npix = BitVec.ofNat 64 (w.toNat * h.toNat) := rfl
@[simp] theorem latchHeader_count (m w h : Word32) (c cs : Byte) (s : State) :
    (latchHeader m w h c cs s).count = s.count := rfl
@[simp] theorem latchHeader_phase (m w h : Word32) (c cs : Byte) (s : State) :
    (latchHeader m w h c cs s).phase = if w.toNat * h.toNat = 0 then .done else .chunk := rfl
@[simp] theorem latchHeader_err (m w h : Word32) (c cs : Byte) (s : State) :
    (latchHeader m w h c cs s).err = s.err := rfl
@[simp] theorem latchHeader_magic (m w h : Word32) (c cs : Byte) (s : State) :
    (latchHeader m w h c cs s).magic = m := rfl
@[simp] theorem latchHeader_width (m w h : Word32) (c cs : Byte) (s : State) :
    (latchHeader m w h c cs s).width = w := rfl
@[simp] theorem latchHeader_height (m w h : Word32) (c cs : Byte) (s : State) :
    (latchHeader m w h c cs s).height = h := rfl
@[simp] theorem latchHeader_channels (m w h : Word32) (c cs : Byte) (s : State) :
    (latchHeader m w h c cs s).channels = c := rfl
@[simp] theorem latchHeader_colorspace (m w h : Word32) (c cs : Byte) (s : State) :
    (latchHeader m w h c cs s).colorspace = cs := rfl
@[simp] theorem latchHeader_hdrValid (m w h : Word32) (c cs : Byte) (s : State) :
    (latchHeader m w h c cs s).hdrValid = true := rfl
@[simp] theorem latchHeader_inLen (m w h : Word32) (c cs : Byte) (s : State) :
    (latchHeader m w h c cs s).inLen = s.inLen := rfl
@[simp] theorem latchHeader_inBuf (m w h : Word32) (c cs : Byte) (s : State) :
    (latchHeader m w h c cs s).inBuf = s.inBuf := rfl
@[simp] theorem latchHeader_out (m w h : Word32) (c cs : Byte) (s : State) :
    (latchHeader m w h c cs s).out = s.out := rfl
@[simp] theorem latchHeader_moves (m w h : Word32) (c cs : Byte) (s : State) :
    (latchHeader m w h c cs s).moves = s.moves := rfl
@[simp] theorem latchHeader_replies (m w h : Word32) (c cs : Byte) (s : State) :
    (latchHeader m w h c cs s).replies = s.replies := rfl
@[simp] theorem inByte_latchHeader (m w h : Word32) (c cs : Byte) (s : State) (a : Nat) :
    inByte (latchHeader m w h c cs s) a = inByte s a := rfl

/-! ## `reply` -/

@[simp] theorem reply_prev (r : HostReply) (s : State) :
    (reply r s).prev = s.prev := rfl
@[simp] theorem reply_cache (r : HostReply) (s : State) :
    (reply r s).cache = s.cache := rfl
@[simp] theorem reply_run (r : HostReply) (s : State) :
    (reply r s).run = s.run := rfl
@[simp] theorem reply_pos (r : HostReply) (s : State) :
    (reply r s).pos = s.pos := rfl
@[simp] theorem reply_npix (r : HostReply) (s : State) :
    (reply r s).npix = s.npix := rfl
@[simp] theorem reply_count (r : HostReply) (s : State) :
    (reply r s).count = s.count := rfl
@[simp] theorem reply_phase (r : HostReply) (s : State) :
    (reply r s).phase = s.phase := rfl
@[simp] theorem reply_err (r : HostReply) (s : State) :
    (reply r s).err = s.err := rfl
@[simp] theorem reply_magic (r : HostReply) (s : State) :
    (reply r s).magic = s.magic := rfl
@[simp] theorem reply_width (r : HostReply) (s : State) :
    (reply r s).width = s.width := rfl
@[simp] theorem reply_height (r : HostReply) (s : State) :
    (reply r s).height = s.height := rfl
@[simp] theorem reply_channels (r : HostReply) (s : State) :
    (reply r s).channels = s.channels := rfl
@[simp] theorem reply_colorspace (r : HostReply) (s : State) :
    (reply r s).colorspace = s.colorspace := rfl
@[simp] theorem reply_hdrValid (r : HostReply) (s : State) :
    (reply r s).hdrValid = s.hdrValid := rfl
@[simp] theorem reply_inLen (r : HostReply) (s : State) :
    (reply r s).inLen = s.inLen := rfl
@[simp] theorem reply_inBuf (r : HostReply) (s : State) :
    (reply r s).inBuf = s.inBuf := rfl
@[simp] theorem reply_out (r : HostReply) (s : State) :
    (reply r s).out = s.out := rfl
@[simp] theorem reply_moves (r : HostReply) (s : State) :
    (reply r s).moves = s.moves := rfl
@[simp] theorem reply_replies (r : HostReply) (s : State) :
    (reply r s).replies = s.replies ++ [r] := rfl
@[simp] theorem inByte_reply (r : HostReply) (s : State) (a : Nat) :
    inByte (reply r s) a = inByte s a := rfl

/-! ## Dropping the host's move -/

@[simp] theorem inByte_moves (s : State) (l : List HostMove) (a : Nat) :
    inByte { s with moves := l } a = inByte s a := rfl

end Sys2Proof.Machine
end

