-- ==== Sys2Proof/Laws/Exec.lean ====
section
/-! SUPPORT. One lemma for each shared operation and each chunk, saying everything it can do in the terms
of Safety. -/

namespace Sys2Proof.Machine

/-! ## The hash and the cache -/

/-- The slot the model writes is the slot of R104. -/
theorem pixelHash_val (p : Pixel) :
    (pixelHash p).val = (p.r.toNat * 3 + p.g.toNat * 5 + p.b.toNat * 7 + p.a.toNat * 11) % 64 := rfl

/-- A slot of the cache after a write (R106). -/
theorem cacheSet_get (slots : Vector Pixel 64) (k j : Fin 64) (p : Pixel) :
    (slots.set k.val p k.isLt)[j] = if k = j then p else slots[j] := by
  simp only [Fin.getElem_fin, Vector.getElem_set, Fin.ext_iff]

/-- `u +8 d` as a number (R8). -/
theorem addChannel_toNat (u : Byte) (d : Int) :
    ((addChannel u d).toNat : Int) = ((u.toNat : Int) + d) % 256 := by
  rw [addChannel, BitVec.toNat_ofInt]
  omega

/-! ## The shared operations -/

theorem sameHeader_refl (s : State) : SameHeader s s := ⟨rfl, rfl, rfl, rfl, rfl, rfl, rfl⟩

theorem sameInput_of_eq {s t : State} (h1 : t.inLen = s.inLen) (h2 : t.inBuf = s.inBuf) :
    SameInput s t := ⟨h1, h2, inByte_congr h2⟩

theorem emitted_advance (p : Pixel) (n : Nat) (s : State) : Emitted p n s (advance p n s) where
  prev := rfl
  pos := rfl
  out := rfl
  count := rfl
  phase := rfl
  err := rfl
  header := ⟨rfl, rfl, rfl, rfl, rfl, rfl, rfl⟩
  input := ⟨rfl, rfl, fun _ => rfl⟩
  host := ⟨rfl, rfl⟩

theorem emitted_finishChunk (p : Pixel) (n : Nat) (s : State) :
    Emitted p n s (finishChunk p n s) where
  prev := rfl
  pos := rfl
  out := rfl
  count := rfl
  phase := rfl
  err := rfl
  header := ⟨rfl, rfl, rfl, rfl, rfl, rfl, rfl⟩
  input := ⟨rfl, rfl, fun _ => rfl⟩
  host := ⟨rfl, rfl⟩

theorem emitted_runContinue (s : State) : Emitted s.prev 0 s (runContinue s) where
  prev := rfl
  pos := by simp
  out := rfl
  count := rfl
  phase := rfl
  err := rfl
  header := ⟨rfl, rfl, rfl, rfl, rfl, rfl, rfl⟩
  input := ⟨rfl, rfl, fun _ => rfl⟩
  host := ⟨rfl, rfl⟩

theorem cacheWritten_finishChunk (p : Pixel) (n : Nat) (s : State) :
    CacheWritten (pixelHash p) p s (finishChunk p n s) where
  slot := by simp
  others := fun j h => by
    simp only [finishChunk_cache, cacheSet_get]
    rw [if_neg (Ne.symm h)]

theorem raisedFrom_raiseError (e : FormatError) (s : State) : RaisedFrom e s (raiseError e s) where
  phase := rfl
  err := rfl
  prev := rfl
  cache := rfl
  run := rfl
  pos := rfl
  count := rfl
  out := rfl
  header := ⟨rfl, rfl, rfl, rfl, rfl, rfl, rfl⟩
  input := ⟨rfl, rfl, fun _ => rfl⟩
  host := ⟨rfl, rfl⟩

/-- Loading the run counter touches nothing a chunk's own update speaks of. -/
theorem emitted_loadRun (p : Pixel) (n m : Nat) (s : State) :
    Emitted p n s (finishChunk p n (loadRun m s)) where
  prev := rfl
  pos := rfl
  out := rfl
  count := rfl
  phase := rfl
  err := rfl
  header := ⟨rfl, rfl, rfl, rfl, rfl, rfl, rfl⟩
  input := ⟨rfl, rfl, fun _ => rfl⟩
  host := ⟨rfl, rfl⟩

theorem cacheWritten_loadRun (p : Pixel) (n m : Nat) (s : State) :
    CacheWritten (pixelHash p) p s (finishChunk p n (loadRun m s)) :=
  ⟨(cacheWritten_finishChunk p n (loadRun m s)).slot,
    (cacheWritten_finishChunk p n (loadRun m s)).others⟩

/-! ## Everything a chunk can do -/

/-- The three shapes of a chunk's effect: an overrun, a lookup, or a pixel written to its slot with the
run counter kept or loaded. -/
theorem exec_cases {i : Instr} {s t : State} (h : exec i s = .next t) :
    (∃ n, i = .run n ∧ (n : Int) > remaining s ∧ t = raiseError .overrun s) ∨
    (∃ k, i = .index k ∧ t = advance (cacheGet s k) 1 s) ∨
    (∃ n, i = .run n ∧ (n : Int) ≤ remaining s ∧ t = finishChunk s.prev 1 (loadRun n s)) ∨
    (∃ p n, i.kind ≠ .index ∧ i.kind ≠ .run ∧ t = finishChunk p n s) := by
  cases i with
  | rgb r g b =>
    exact .inr (.inr (.inr ⟨_, _, by simp [Instr.kind], by simp [Instr.kind],
      (Host.Outcome.next.inj h).symm⟩))
  | rgba r g b a =>
    exact .inr (.inr (.inr ⟨_, _, by simp [Instr.kind], by simp [Instr.kind],
      (Host.Outcome.next.inj h).symm⟩))
  | index k => exact .inr (.inl ⟨k, rfl, (Host.Outcome.next.inj h).symm⟩)
  | diff dr dg db =>
    exact .inr (.inr (.inr ⟨_, _, by simp [Instr.kind], by simp [Instr.kind],
      (Host.Outcome.next.inj h).symm⟩))
  | luma dg drdg dbdg =>
    exact .inr (.inr (.inr ⟨_, _, by simp [Instr.kind], by simp [Instr.kind],
      (Host.Outcome.next.inj h).symm⟩))
  | run n =>
    simp only [exec, execRun] at h
    split at h
    · exact .inl ⟨n, rfl, by assumption, (Host.Outcome.next.inj h).symm⟩
    · exact .inr (.inr (.inl ⟨n, rfl, by omega, (Host.Outcome.next.inj h).symm⟩))

/-- A chunk never stops the machine (R65, R100). -/
theorem exec_answers_next (i : Instr) (s : State) : ∃ t, exec i s = .next t := by
  cases i with
  | rgb r g b => exact ⟨_, rfl⟩
  | rgba r g b a => exact ⟨_, rfl⟩
  | index k => exact ⟨_, rfl⟩
  | diff dr dg db => exact ⟨_, rfl⟩
  | luma dg drdg dbdg => exact ⟨_, rfl⟩
  | run n =>
    simp only [exec, execRun]
    split <;> exact ⟨_, rfl⟩

/-! ## The header parse -/

/-- The header step raises the first error or latches the header, and nothing else. -/
theorem headerStep_cases (pol : ZeroDimPolicy) (s : State) :
    (∃ e, headerError pol s = some e ∧ headerStep pol s = raiseError e s) ∨
    (headerError pol s = none ∧
      headerStep pol s =
        latchHeader (be32 s 0) (be32 s 4) (be32 s 8) (inByte s 12) (inByte s 13) s) := by
  simp only [headerStep]
  cases h : headerError pol s with
  | none => exact .inr ⟨rfl, rfl⟩
  | some e => exact .inl ⟨e, rfl, rfl⟩

/-- What a header without an error is (R85). -/
theorem headerError_none {pol : ZeroDimPolicy} {s : State} (h : headerError pol s = none) :
    Config.headerLen ≤ s.inLen.toNat ∧ be32 s 0 = Config.goodMagic ∧
      (inByte s 12 = 3 ∨ inByte s 12 = 4) ∧ (inByte s 13 = 0 ∨ inByte s 13 = 1) ∧
      (pol = .accept ∨ be32 s 4 ≠ 0 ∧ be32 s 8 ≠ 0) := by
  simp only [headerError] at h
  split at h
  · cases h
  · split at h
    · cases h
    · split at h
      · cases h
      · split at h
        · cases h
        · refine ⟨by omega, by simp_all, by tauto, by tauto, ?_⟩
          split at h
          · cases pol with
            | accept => exact .inl rfl
            | reject => cases h
          · exact .inr (by tauto)

end Sys2Proof.Machine
end

