-- ==== Sys2Proof/Laws/Step.lean ====
section
/-! SUPPORT. What the fetch, the decoder's step and a step of the machine can do, each said once. -/

namespace Sys2Proof.Machine

/-! ## The fetch -/

/-- `MemRead` of one byte more. -/
theorem memRead_succ (s : State) (addr n : Nat) :
    memRead s addr (n + 1) = inByte s addr :: memRead s (addr + 1) n := rfl

/-- The chunk's bytes decode whole, whatever they are (R100). -/
theorem decode_memRead (s : State) (addr : Nat) :
    ∃ i, decode (memRead s addr (chunkLen (inByte s addr))) = .ok (i, []) := by
  have hpos := chunkLen_pos (inByte s addr)
  have hlen : (memRead s (addr + 1) (chunkLen (inByte s addr) - 1)).length + 1 =
      chunkLen (inByte s addr) := by simp; omega
  obtain ⟨i, hi⟩ := decode_whole (inByte s addr) _ [] hlen
  refine ⟨i, ?_⟩
  rw [show chunkLen (inByte s addr) = chunkLen (inByte s addr) - 1 + 1 by omega, memRead_succ]
  simpa using hi

/-- A fetch answers `Truncated` exactly when the chunk is cut (R91). -/
theorem fetch_cut {s : State}
    (h : s.inLen.toNat ≤ s.pos.toNat ∨
      s.inLen.toNat < s.pos.toNat + chunkLen (inByte s s.pos.toNat)) :
    fetch s = .error .truncated := by
  simp only [fetch]
  split
  · rfl
  · rw [if_pos (by omega)]

/-- A fetch of a whole chunk answers the instruction its bytes decode to. -/
theorem fetch_whole {s : State}
    (h : s.pos.toNat + chunkLen (inByte s s.pos.toNat) ≤ s.inLen.toNat) :
    ∃ i, fetch s = .ok i ∧
      decode (memRead s s.pos.toNat (chunkLen (inByte s s.pos.toNat))) = .ok (i, []) := by
  obtain ⟨i, hi⟩ := decode_memRead s s.pos.toNat
  have hp := chunkLen_pos (inByte s s.pos.toNat)
  refine ⟨i, ?_, hi⟩
  simp only [fetch]
  rw [if_neg (by omega), if_neg (by omega), hi]

/-- All a fetch can answer. -/
theorem fetch_cases (s : State) :
    (fetch s = .error .truncated ∧ (s.inLen.toNat ≤ s.pos.toNat ∨
      s.inLen.toNat < s.pos.toNat + chunkLen (inByte s s.pos.toNat))) ∨
    (s.pos.toNat + chunkLen (inByte s s.pos.toNat) ≤ s.inLen.toNat ∧ ∃ i, fetch s = .ok i ∧
      decode (memRead s s.pos.toNat (chunkLen (inByte s s.pos.toNat))) = .ok (i, [])) := by
  have hp := chunkLen_pos (inByte s s.pos.toNat)
  by_cases h : s.inLen.toNat < s.pos.toNat + chunkLen (inByte s s.pos.toNat)
  · exact .inl ⟨fetch_cut (.inr h), .inr h⟩
  · exact .inr ⟨by omega, fetch_whole (by omega)⟩

/-- The number of bytes that decode to a chunk is the length its tag gives. -/
theorem decode_memRead_length {s : State} {addr n : Nat} {i : Instr}
    (h : decode (memRead s addr n) = .ok (i, [])) : n = chunkLen (inByte s addr) := by
  have hl : (memRead s addr n).length = n := memRead_length s addr n
  obtain ⟨b0, hc⟩ := decode_cases h
  have head : ∀ rest, memRead s addr n = b0 :: rest → inByte s addr = b0 := by
    intro rest hr
    cases n with
    | zero => simp [memRead] at hr
    | succ n => rw [memRead_succ] at hr; exact (List.cons.inj hr).1
  rcases hc with ⟨_, _, _, hk, hb, _⟩ | ⟨_, _, _, _, hk, hb, _⟩ | ⟨hk, hb, _⟩ | ⟨hk, hb, _⟩ |
    ⟨_, hk, hb, _⟩ | ⟨hk, hb, _⟩ <;>
  · rw [head _ hb, chunkLen_kind, hk]
    rw [hb] at hl
    simpa using hl.symm

/-- The instruction a fetch answers, from bytes that decode to it. -/
theorem fetch_of_decode {s : State} {n : Nat} {i : Instr}
    (hlen : s.pos.toNat + n ≤ s.inLen.toNat)
    (h : decode (memRead s s.pos.toNat n) = .ok (i, [])) : fetch s = .ok i := by
  obtain rfl := decode_memRead_length h
  obtain ⟨j, hj, hd⟩ := fetch_whole hlen
  rw [hd] at h
  simp only [Except.ok.injEq, Prod.mk.injEq, and_true] at h
  rw [hj, h]

/-! ## The chunk step -/

/-- Everything a chunk step can do (R90, R91, R92). -/
theorem chunkStep_cases {s t : State} (h : chunkStep s = .next t) :
    (s.run ≠ 0 ∧ t = runContinue s) ∨
    (s.run = 0 ∧ fetch s = .error .truncated ∧ t = raiseError .truncated s) ∨
    (s.run = 0 ∧ ∃ i, fetch s = .ok i ∧ exec i s = .next t) := by
  simp only [chunkStep] at h
  by_cases hr : s.run = 0
  · rw [if_neg (by simp [hr])] at h
    rcases fetch_cases s with ⟨hf, _⟩ | ⟨_, i, hf, _⟩
    · rw [hf] at h
      exact .inr (.inl ⟨hr, hf, (Host.Outcome.next.inj h).symm⟩)
    · rw [hf] at h
      exact .inr (.inr ⟨hr, i, hf, h⟩)
  · rw [if_pos hr] at h
    exact .inl ⟨hr, (Host.Outcome.next.inj h).symm⟩

/-- A chunk step always answers a next state. -/
theorem chunkStep_answers_next (s : State) : ∃ t, chunkStep s = .next t := by
  simp only [chunkStep]
  by_cases hr : s.run = 0
  · rw [if_neg (by simp [hr])]
    rcases fetch_cases s with ⟨hf, _⟩ | ⟨_, i, hf, _⟩
    · rw [hf]; exact ⟨_, rfl⟩
    · rw [hf]; exact exec_answers_next i s
  · rw [if_pos hr]; exact ⟨_, rfl⟩

/-- Everything a decoder step can do (R89). -/
theorem decoderStep_cases {pol : ZeroDimPolicy} {s t : State} (h : decoderStep pol s = .next t) :
    (s.phase = .header ∧ t = headerStep pol s) ∨ (s.phase = .chunk ∧ chunkStep s = .next t) := by
  cases hp : s.phase <;> simp only [decoderStep, hp] at h
  · cases h
  · exact .inl ⟨rfl, (Host.Outcome.next.inj h).symm⟩
  · exact .inr ⟨rfl, h⟩
  · cases h
  · cases h

/-! ## A step of the machine -/

theorem stepWith_nil (pol : ZeroDimPolicy) {s : State} (h : s.moves = []) :
    stepWith pol s = decoderStep pol s := by
  simp only [stepWith, h]

theorem stepWith_cons (pol : ZeroDimPolicy) {s : State} {m : HostMove} {later : List HostMove}
    (h : s.moves = m :: later) :
    stepWith pol s = takeMove pol m { s with moves := later } := by
  simp only [stepWith, h]

theorem step_eq (s : State) : step s = stepWith Config.zeroDimPolicy s := rfl

/-- A step in the chunk phase with no move of the host is the chunk step. -/
theorem step_chunk {s : State} (hp : s.phase = .chunk) (hm : s.moves = []) :
    step s = chunkStep s := by
  rw [step_eq, stepWith_nil _ hm, decoderStep, hp]

/-- A step of the machine, with no run being continued, runs the chunk it fetches. -/
theorem step_fetch {s : State} {i : Instr} (hp : s.phase = .chunk) (hr : s.run = 0)
    (hm : s.moves = []) (hf : fetch s = .ok i) : step s = exec i s := by
  rw [step_chunk hp hm, chunkStep, if_neg (by simp [hr]), hf]

/-- A step of the machine whose chunk is cut raises `Truncated`. -/
theorem step_cut {s : State} {e : FormatError} (hp : s.phase = .chunk) (hr : s.run = 0)
    (hm : s.moves = []) (hf : fetch s = .error e) : step s = .next (raiseError e s) := by
  rw [step_chunk hp hm, chunkStep, if_neg (by simp [hr]), hf]

/-- Every way a step can answer a next state: the decoder's step, on the state without the host's wait
if there was one; a wait outside a call; or a move of the host. -/
theorem stepWith_cases {pol : ZeroDimPolicy} {s t : State} (h : stepWith pol s = .next t) :
    (s.moves = [] ∧ decoderStep pol s = .next t) ∨
    (∃ later, s.moves = .wait :: later ∧ s.phase.busy = true ∧
      decoderStep pol { s with moves := later } = .next t) ∨
    (∃ later, s.moves = .wait :: later ∧ s.phase.busy = false ∧ t = { s with moves := later }) ∨
    (∃ n v later, s.moves = .writeReg n v :: later ∧
      t = writeRegister n v { s with moves := later }) ∨
    (∃ n later, s.moves = .readReg n :: later ∧
      t = reply (.reg n (regValue s n)) { s with moves := later }) ∨
    (∃ k later, s.moves = .readOut k :: later ∧
      t = reply (.pixel k (s.out[k]?)) { s with moves := later }) ∨
    (∃ offset bytes later, s.moves = .placeInput offset bytes :: later ∧ s.phase.busy = false ∧
      offset + bytes.length ≤ Config.inputOffsets ∧
      t = { s with moves := later, inBuf := s.inBuf.writeBytes offset bytes }) ∨
    (∃ later, s.moves = .reset :: later ∧ t = hardwareReset { s with moves := later }) := by
  cases hm : s.moves with
  | nil =>
    rw [stepWith_nil pol hm] at h
    exact .inl ⟨rfl, h⟩
  | cons m later =>
    rw [stepWith_cons pol hm] at h
    refine .inr ?_
    cases m with
    | wait =>
      simp only [takeMove, decoderTurn] at h
      by_cases hb : s.phase.busy = true
      · rw [if_pos hb] at h
        exact .inl ⟨later, rfl, hb, h⟩
      · rw [if_neg hb] at h
        exact .inr (.inl ⟨later, rfl, by simpa using hb, (Host.Outcome.next.inj h).symm⟩)
    | writeReg n v =>
      exact .inr (.inr (.inl ⟨n, v, later, rfl, (Host.Outcome.next.inj h).symm⟩))
    | readReg n =>
      exact .inr (.inr (.inr (.inl ⟨n, later, rfl, (Host.Outcome.next.inj h).symm⟩)))
    | readOut k =>
      exact .inr (.inr (.inr (.inr (.inl ⟨k, later, rfl, (Host.Outcome.next.inj h).symm⟩))))
    | placeInput offset bytes =>
      simp only [takeMove, hostMove, placeInput] at h
      split at h
      · cases h
      · rename_i hb
        split at h
        · cases h
        · exact .inr (.inr (.inr (.inr (.inr (.inl ⟨offset, bytes, later, rfl, by simpa using hb,
            by omega, (Host.Outcome.next.inj h).symm⟩)))))
    | reset =>
      exact .inr (.inr (.inr (.inr (.inr (.inr
        ⟨later, rfl, (Host.Outcome.next.inj h).symm⟩)))))

/-- No step at all. -/
theorem runSteps_zero (s : State) : runSteps 0 s = .next s := rfl

/-- A run whose first step answers a next state goes on from it. -/
theorem runSteps_succ {k : Nat} {s t : State} (h : step s = .next t) :
    runSteps (k + 1) s = runSteps k t := by
  have hc : Sys2Proof.core.step s = .next t := h
  simp only [runSteps, Host.Core.run, hc]
  rfl

/-- A run that answers a next state took a first step that did. -/
theorem runSteps_succ_inv {k : Nat} {s t : State} (h : runSteps (k + 1) s = .next t) :
    ∃ u, step s = .next u ∧ runSteps k u = .next t := by
  cases hs : step s with
  | next u => rw [runSteps_succ hs] at h; exact ⟨u, rfl, h⟩
  | fault r =>
    have hc : Sys2Proof.core.step s = .fault r := hs
    simp only [runSteps, Host.Core.run, hc] at h
    cases h
  | refused r =>
    have hc : Sys2Proof.core.step s = .refused r := hs
    simp only [runSteps, Host.Core.run, hc] at h
    cases h

/-- What a register write does: START, a half of `IN_LEN`, or nothing (R29, R31, R37). -/
theorem writeRegister_cases (n : Nat) (v : Word32) (s : State) :
    (n = 0 ∧ v.getLsbD 0 = true ∧ s.phase.busy = false ∧ writeRegister n v s = startCall s) ∨
    (s.phase.busy = false ∧ (n = 2 ∨ n = 3) ∧
      ∃ len, writeRegister n v s = { s with inLen := len }) ∨
    writeRegister n v s = s := by
  by_cases h0 : n = 0
  · subst h0
    simp only [writeRegister, writeCtrl]
    split
    · rename_i h
      exact .inl ⟨trivial, h.1, h.2, rfl⟩
    · exact .inr (.inr rfl)
  · by_cases h2 : n = 2
    · subst h2
      simp only [writeRegister, writeLenLo]
      split
      · exact .inr (.inr rfl)
      · rename_i h
        exact .inr (.inl ⟨by simpa using h, .inl trivial, _, rfl⟩)
    · by_cases h3 : n = 3
      · subst h3
        simp only [writeRegister, writeLenHi]
        split
        · exact .inr (.inr rfl)
        · rename_i h
          exact .inr (.inl ⟨by simpa using h, .inr trivial, _, rfl⟩)
      · refine .inr (.inr ?_)
        simp only [writeRegister]

end Sys2Proof.Machine
end

