-- ==== Sys2Proof/Laws/Frame.lean ====
section
/-! SUPPORT. What the decoder's step never touches, and what it does not look at: the host's moves, the
replies and, in the chunk phase, the channel count and the colorspace. -/

namespace Sys2Proof.Machine

/-- What every decoder step leaves alone: the input and what is the host's (R44, R31). -/
theorem decoderStep_frame {pol : ZeroDimPolicy} {s t : State} (h : decoderStep pol s = .next t) :
    t.inLen = s.inLen ∧ t.inBuf = s.inBuf ∧ t.moves = s.moves ∧ t.replies = s.replies := by
  rcases decoderStep_cases h with ⟨_, rfl⟩ | ⟨_, h⟩
  · rcases headerStep_cases pol s with ⟨e, _, he⟩ | ⟨_, he⟩ <;> rw [he] <;> simp
  · rcases chunkStep_cases h with ⟨_, rfl⟩ | ⟨_, _, rfl⟩ | ⟨_, i, _, h⟩
    · simp
    · simp
    · rcases exec_cases h with ⟨n, _, _, rfl⟩ | ⟨k, _, rfl⟩ | ⟨n, _, _, rfl⟩ | ⟨p, n, _, _, rfl⟩ <;>
        simp

/-- A chunk step never touches the header registers (R85). -/
theorem chunkStep_header {s t : State} (h : chunkStep s = .next t) : SameHeader s t := by
  rcases chunkStep_cases h with ⟨_, rfl⟩ | ⟨_, _, rfl⟩ | ⟨_, i, _, h⟩
  · exact (emitted_runContinue s).header
  · exact (raisedFrom_raiseError _ s).header
  · rcases exec_cases h with ⟨n, _, _, rfl⟩ | ⟨k, _, rfl⟩ | ⟨n, _, _, rfl⟩ | ⟨p, n, _, _, rfl⟩
    · exact (raisedFrom_raiseError _ s).header
    · exact (emitted_advance _ _ s).header
    · exact (emitted_loadRun _ _ _ s).header
    · exact (emitted_finishChunk _ _ s).header

/-- A chunk step raises an error of its own, or emits exactly one pixel and raises none (R97). -/
theorem chunkStep_emits_or_raises {s t : State} (h : chunkStep s = .next t) :
    (∃ e, t = raiseError e s ∧ s.run = 0) ∨ (∃ p n, Emitted p n s t) := by
  rcases chunkStep_cases h with ⟨_, rfl⟩ | ⟨hr, _, rfl⟩ | ⟨hr, i, _, h⟩
  · exact .inr ⟨_, _, emitted_runContinue s⟩
  · exact .inl ⟨_, rfl, hr⟩
  · rcases exec_cases h with ⟨n, _, _, rfl⟩ | ⟨k, _, rfl⟩ | ⟨n, _, _, rfl⟩ | ⟨p, n, _, _, rfl⟩
    · exact .inl ⟨_, rfl, hr⟩
    · exact .inr ⟨_, _, emitted_advance _ _ s⟩
    · exact .inr ⟨_, _, emitted_loadRun _ _ _ s⟩
    · exact .inr ⟨_, _, emitted_finishChunk _ _ s⟩

/-- In the phases of a call the decoder has a step (R89). -/
theorem decoderStep_answers_next (pol : ZeroDimPolicy) {s : State} (h : s.phase.busy = true) :
    ∃ t, decoderStep pol s = .next t := by
  cases hp : s.phase <;> simp only [hp, Phase.busy] at h <;> simp only [decoderStep, hp]
  · cases h
  · exact ⟨_, rfl⟩
  · exact chunkStep_answers_next s
  · cases h
  · cases h

/-- Outside them it has none (R89). -/
theorem decoderStep_stops (pol : ZeroDimPolicy) {s : State} (h : s.phase.busy = false) :
    decoderStep pol s = .fault .noStep := by
  cases hp : s.phase <;> simp only [hp, Phase.busy] at h <;> simp only [decoderStep, hp]
  · cases h
  · cases h

/-- A state with other moves and replies of the host, all else the same. -/
def withHost (l : List HostMove) (r : List HostReply) (s : State) : State :=
  { s with moves := l, replies := r }

theorem fetch_withHost (l : List HostMove) (r : List HostReply) (s : State) :
    fetch (withHost l r s) = fetch s := by
  have hm : ∀ n addr, memRead (withHost l r s) addr n = memRead s addr n := fun n addr =>
    memRead_congr addr n fun a _ _ => inByte_congr (s := s) (t := withHost l r s) rfl a
  simp only [fetch, hm, inByte_congr (s := s) (t := withHost l r s) rfl]
  rfl

theorem exec_withHost (l : List HostMove) (r : List HostReply) {i : Instr} {s t : State}
    (h : exec i s = .next t) : exec i (withHost l r s) = .next (withHost l r t) := by
  cases i with
  | rgb r g b => rw [← Host.Outcome.next.inj h]; rfl
  | rgba r g b a => rw [← Host.Outcome.next.inj h]; rfl
  | index k => rw [← Host.Outcome.next.inj h]; rfl
  | diff dr dg db => rw [← Host.Outcome.next.inj h]; rfl
  | luma dg drdg dbdg => rw [← Host.Outcome.next.inj h]; rfl
  | run n =>
    simp only [exec, execRun] at h ⊢
    by_cases hn : (n : Int) > remaining s
    · rw [if_pos hn] at h
      rw [if_pos (show (n : Int) > remaining (withHost l r s) from hn), ← Host.Outcome.next.inj h]
      rfl
    · rw [if_neg hn] at h
      rw [if_neg (show ¬ (n : Int) > remaining (withHost l r s) from hn),
        ← Host.Outcome.next.inj h]
      rfl

theorem headerStep_withHost (pol : ZeroDimPolicy) (l : List HostMove) (r : List HostReply)
    (s : State) : headerStep pol (withHost l r s) = withHost l r (headerStep pol s) := by
  have he : headerError pol (withHost l r s) = headerError pol s := rfl
  simp only [headerStep, he]
  cases headerError pol s <;> rfl

/-- The decoder's step is the same whatever moves the host has still to make and whatever it has
read (R51). -/
theorem decoderStep_withHost {pol : ZeroDimPolicy} (l : List HostMove) (r : List HostReply)
    {s t : State} (h : decoderStep pol s = .next t) :
    decoderStep pol (withHost l r s) = .next (withHost l r t) := by
  rcases decoderStep_cases h with ⟨hp, rfl⟩ | ⟨hp, h⟩
  · simp only [decoderStep, show (withHost l r s).phase = .header from hp, headerStep_withHost]
  · simp only [decoderStep, show (withHost l r s).phase = .chunk from hp]
    simp only [chunkStep, fetch_withHost]
    rcases chunkStep_cases h with ⟨hr, rfl⟩ | ⟨hr, hf, rfl⟩ | ⟨hr, i, hf, h⟩
    · rw [if_pos (show (withHost l r s).run ≠ 0 from hr)]; rfl
    · rw [if_neg (show ¬ (withHost l r s).run ≠ 0 by simpa [withHost] using hr), hf]; rfl
    · rw [if_neg (show ¬ (withHost l r s).run ≠ 0 by simpa [withHost] using hr), hf]
      exact exec_withHost l r h

end Sys2Proof.Machine
end

