-- ==== Sys2Proof/Laws/PerInstr.lean ====
section
/-! SUPPORT. One fact about every chunk kind: its encoding starts with a tag byte of its own kind (R63,
R70) and is as long as that tag byte says (R62). -/

namespace Sys2Proof.Laws.EncodeLen

/-- A well-formed chunk's encoding is a tag byte of the chunk's kind and a payload of the tag's length. -/
def Statement (i : Instr) : Prop :=
  i.wellFormed = true →
    ∃ b0 pay, encode i = b0 :: pay ∧ kindOf b0 = i.kind ∧ pay.length + 1 = chunkLen b0

/-- A chunk of the length its kind has: the tag's kind fixes the length (R62). -/
theorem of_kind {i : Instr} {b0 : Byte} {pay : List Byte} (he : encode i = b0 :: pay)
    (hk : kindOf b0 = i.kind)
    (hl : pay.length + 1 = match i.kind with
      | .rgb => 4 | .rgba => 5 | .index => 1 | .diff => 1 | .luma => 2 | .run => 1) :
    ∃ b0 pay, encode i = b0 :: pay ∧ kindOf b0 = i.kind ∧ pay.length + 1 = chunkLen b0 :=
  ⟨b0, pay, he, hk, by rw [chunkLen_kind, hk]; exact hl⟩

theorem rgb (r g b : Byte) : Statement (.rgb r g b) := fun _ => of_kind rfl rfl rfl

theorem rgba (r g b a : Byte) : Statement (.rgba r g b a) := fun _ => of_kind rfl rfl rfl

theorem index (i : Fin 64) : Statement (.index i) := by
  refine fun _ => of_kind (b0 := BitVec.ofNat 8 i.val) rfl ?_ rfl
  have := i.isLt
  rw [kindOf_toNat, BitVec.toNat_ofNat, if_pos (by omega)]
  rfl

theorem diff (dr dg db : Int) : Statement (.diff dr dg db) := by
  intro h
  simp only [Instr.wellFormed, Bool.and_eq_true, inRange_iff] at h
  refine of_kind (b0 := BitVec.ofInt 8 (0x40 + (dr + 2) * 16 + (dg + 2) * 4 + (db + 2))) rfl ?_ rfl
  rw [kindOf_toNat, BitVec.toNat_ofInt, if_neg (by omega), if_pos (by omega)]
  rfl

theorem luma (dg drdg dbdg : Int) : Statement (.luma dg drdg dbdg) := by
  intro h
  simp only [Instr.wellFormed, Bool.and_eq_true, inRange_iff] at h
  refine of_kind (b0 := BitVec.ofInt 8 (0x80 + (dg + 32))) rfl ?_ rfl
  rw [kindOf_toNat, BitVec.toNat_ofInt, if_neg (by omega), if_neg (by omega), if_pos (by omega)]
  rfl

theorem run (n : Nat) : Statement (.run n) := by
  intro h
  simp only [Instr.wellFormed, Bool.and_eq_true, decide_eq_true_eq, Config.runMax] at h
  refine of_kind (b0 := BitVec.ofInt 8 (0xC0 + ((n : Int) - 1))) rfl ?_ rfl
  rw [kindOf_toNat, BitVec.toNat_ofInt, if_neg (by omega), if_neg (by omega), if_neg (by omega),
    if_pos (by omega)]
  rfl

end Sys2Proof.Laws.EncodeLen
end

