-- ==== Sys2Proof/Tests/Slice0.lean ====
section
/-! SUPPORT. The author's own tests: what WellFormed refuses, words of each format of 30_encoding.md, single
steps of 95_test_vectors.md, and for every statement with hypotheses a state that meets them. Every
expected value is one the spec writes down. -/

namespace Sys2Proof.Tests

open Sys2Proof.Machine

/-! ## Small states -/

/-- A file: the header of R71 with dimensions below 256, then chunk bytes. -/
def fileOf (w h ch cs : Byte) (chunks : List Byte) : List Byte :=
  [0x71, 0x6F, 0x69, 0x66, 0, 0, 0, w, 0, 0, 0, h, ch, cs] ++ chunks

/-- Reset, with a file placed and its length written (R136). -/
def placed (bytes : List Byte) : State :=
  { State.reset with
    inBuf := (⟨[]⟩ : Memory).writeBytes 0 bytes
    inLen := BitVec.ofNat 64 bytes.length }

/-- A call on the file, its header not parsed yet. -/
def started (bytes : List Byte) : State := startCall (placed bytes)

/-- A call on the file, its header parsed. -/
def opened (bytes : List Byte) : State := headerStep .accept (started bytes)

/-- The state, with moves of the host to come. -/
def told (s : State) (moves : List HostMove) : State := { s with moves := moves }

/-- The state, with another previous pixel (the vectors' "from `PREV`"). -/
def having (p : Pixel) (s : State) : State := { s with prev := p }

/-- The state some steps later. -/
def after (k : Nat) (s : State) : State :=
  match runSteps k s with
  | .next t => t
  | .fault _ => s
  | .refused _ => s

/-- What a test looks at: `PREV`, `POS`, `COUNT`, `RUN`, `ERR` and a cache slot. -/
def look (slot : Fin 64) (r : Result) : Option (Pixel × Nat × Nat × Nat × Nat × Pixel) :=
  match r with
  | .next t =>
    some (t.prev, t.pos.toNat, t.count.toNat, t.run.toNat, t.err.toNat, t.cache[slot])
  | .fault _ => none
  | .refused _ => none

/-- The error code and `POS` a header parse leaves, with `HDR_VALID` and `NPIX`. -/
def lookHeader (r : Result) : Option (Nat × Nat × Bool × Nat) :=
  match r with
  | .next t => some (t.err.toNat, t.pos.toNat, t.hdrValid, t.npix.toNat)
  | .fault _ => none
  | .refused _ => none

/-- A one-pixel image with one DIFF (H15, with channels 4). -/
abbrev onePixel : List Byte := fileOf 1 1 4 0 [0x6A]

/-- A call that has ended in DONE. -/
def finished : State := after 1 (opened onePixel)

/-- A call that has ended in ERROR (H1). -/
def failed : State := after 1 (started [])

/-! ## WellFormed refuses each ill-formed operand (R69) -/

theorem test_wellFormed_refuses_diff :
    Instr.wellFormed (.diff (-3) 0 0) = false ∧ Instr.wellFormed (.diff 2 0 0) = false ∧
    Instr.wellFormed (.diff 0 (-3) 0) = false ∧ Instr.wellFormed (.diff 0 2 0) = false ∧
    Instr.wellFormed (.diff 0 0 (-3)) = false ∧ Instr.wellFormed (.diff 0 0 2) = false := by
  decide

theorem test_wellFormed_refuses_luma :
    Instr.wellFormed (.luma (-33) 0 0) = false ∧ Instr.wellFormed (.luma 32 0 0) = false ∧
    Instr.wellFormed (.luma 0 (-9) 0) = false ∧ Instr.wellFormed (.luma 0 8 0) = false ∧
    Instr.wellFormed (.luma 0 0 (-9)) = false ∧ Instr.wellFormed (.luma 0 0 8) = false := by
  decide

theorem test_wellFormed_refuses_run :
    Instr.wellFormed (.run 0) = false ∧ Instr.wellFormed (.run 63) = false := by
  decide

theorem test_assembler_refuses_out_of_range :
    assembleLine (.chunk .rgb [256, 0, 0]) = none ∧ assembleLine (.chunk .rgba [0, 0, 0, -1]) = none ∧
    assembleLine (.chunk .index [64]) = none ∧ assembleLine (.chunk .run [63]) = none := by
  decide

/-! ## Decoding: words written out from R60 -/

theorem test_decode_rgb :
    decode [0b11111110, 0x01, 0xFE, 0xFF] = .ok (.rgb 1 0xFE 0xFF, []) := by rfl

theorem test_decode_rgba :
    decode [0b11111111, 0x10, 0x20, 0x30, 0xFF] = .ok (.rgba 16 32 48 255, []) := by rfl

theorem test_decode_index : decode [0b00110101] = .ok (.index 53, []) := by rfl

/-- `01`, then `DR` = 01, `DG` = 10, `DB` = 11 (D1). -/
theorem test_decode_diff : decode [0b01011011] = .ok (.diff (-1) 0 1, []) := by rfl

/-- `10`, then `DGL` = 100101; `DRG` = 0100, `DBG` = 1011 (M1). -/
theorem test_decode_luma : decode [0b10100101, 0b01001011] = .ok (.luma 5 (-4) 3, []) := by rfl

/-- `11`, then `NM1` = 111101, the longest run. -/
theorem test_decode_run : decode [0b11111101] = .ok (.run 62, []) := by rfl

theorem test_decode_rejects_cut_chunks :
    decode [] = .error .noTagByte ∧ decode [0xFE, 1, 2] = .error .payloadCut ∧
    decode [0xFF, 1, 2, 3] = .error .payloadCut ∧ decode [0x80] = .error .payloadCut := by
  exact ⟨rfl, rfl, rfl, rfl⟩

/-- The rows of `opcode_table.json`, taken in precedence order, give every tag byte its kind and length
(R76). -/
theorem test_opcode_table_agrees :
    ∀ high low : Fin 16,
      (tableRow (BitVec.ofNat 8 (16 * high.val + low.val))).map (fun row => (row.kind, row.length)) =
        some (kindOf (BitVec.ofNat 8 (16 * high.val + low.val)), chunkLen (BitVec.ofNat 8 (16 * high.val + low.val))) := by
  decide

/-! ## The assembler: P1's and P2's bytes -/

theorem test_assemble_program :
    assemble [.qoi 4 2 4 0, .chunk .rgb [10, 20, 30], .chunk .diff [1, 1, 1],
      .chunk .luma [-3, 2, -1], .chunk .rgba [10, 20, 30, 128], .chunk .index [9], .chunk .run [2],
      .chunk .diff [-2, -2, -2], .endMarker] =
    some [0x71, 0x6F, 0x69, 0x66, 0, 0, 0, 4, 0, 0, 0, 2, 4, 0, 0xFE, 0x0A, 0x14, 0x1E, 0x7F, 0x9D,
      0xA7, 0xFF, 0x0A, 0x14, 0x1E, 0x80, 0x09, 0xC1, 0x40, 0, 0, 0, 0, 0, 0, 0, 1] := by rfl

theorem test_repeat_and_raw_bytes :
    assembleLine (.repeatRun 99) = some [0xFD, 0xE4] ∧
    assembleLine (.repeatRun 130) = some [0xFD, 0xFD, 0xC5] ∧
    assembleLine (.bytes [254, 9, 9]) = some [254, 9, 9] := by
  exact ⟨rfl, rfl, rfl⟩

theorem test_text_of_a_line :
    readLine ['L', 'U', 'M', 'A', ' ', '-', '3', ',', '2', ',', '-', '1'] =
      some (.chunk .luma [-3, 2, -1]) ∧
    printLine (.chunk .luma [-3, 2, -1]) =
      ['L', 'U', 'M', 'A', ' ', '-', '3', ',', '2', ',', '-', '1'] ∧
    disassembleAt (opened (fileOf 3 1 4 0 [0x9D, 0xA7])) = some (.chunk .luma [-3, 2, -1]) := by
  exact ⟨rfl, rfl, rfl⟩

/-- The model's choice on blanks (log entry 17): around an operand they are ignored, inside one the line
is refused. -/
theorem test_blanks_in_a_line :
    readLine ['R', 'G', 'B', ' ', ' ', '1', ',', ' ', '2', ' ', ',', '3', ' '] =
      some (.chunk .rgb [1, 2, 3]) ∧
    readLine ['R', 'U', 'N', ' ', '1', ' ', '2'] = none ∧
    readLine ['D', 'I', 'F', 'F', ' ', '-', ' ', '1', ',', '0', ',', '0'] = none := by
  exact ⟨rfl, rfl, rfl⟩

/-! ## One step of each chunk kind -/

/-- L2: alpha 7 is kept, and slot 55 is written. -/
theorem test_rgb_keeps_alpha :
    look 55 (step (having ⟨1, 2, 3, 7⟩ (opened (fileOf 3 1 4 0 [0xFE, 0xC8, 0x64, 0x32])))) =
      some (⟨200, 100, 50, 7⟩, 18, 1, 0, 0, ⟨200, 100, 50, 7⟩) := by rfl

/-- L4: cut off by the end of the buffer. -/
theorem test_rgb_truncated :
    look 23 (step (opened (fileOf 3 1 4 0 [0xFE, 1, 2]))) =
      some (⟨0, 0, 0, 255⟩, 14, 0, 0, 4, ⟨0, 0, 0, 0⟩) := by rfl

/-- L5: all four channels, and slot 32 is written. -/
theorem test_rgba_replaces_all :
    look 32 (step (opened (fileOf 3 1 4 0 [0xFF, 0x10, 0x20, 0x30, 0x40]))) =
      some (⟨16, 32, 48, 64⟩, 19, 1, 0, 0, ⟨16, 32, 48, 64⟩) := by rfl

/-- I2: INDEX of a slot nothing has written gives `(0,0,0,0)` and leaves slot 0 as it was. -/
theorem test_index_of_unwritten_slot :
    look 0 (runSteps 2 (opened (fileOf 3 1 4 0 [0xFF, 0, 0, 0, 0x40, 0x05]))) =
      some (⟨0, 0, 0, 0⟩, 20, 2, 0, 0, ⟨0, 0, 0, 64⟩) := by rfl

/-- The worked example of R107: the slot the RGB filled. -/
theorem test_index_after_rgb :
    look 11 (runSteps 2 (opened (fileOf 3 1 4 0 [0xFE, 10, 10, 10, 0x0B]))) =
      some (⟨10, 10, 10, 255⟩, 19, 2, 0, 0, ⟨10, 10, 10, 255⟩) := by rfl

/-- D6: each channel wraps on its own. -/
theorem test_diff_wraps :
    look 7 (step (having ⟨0, 255, 1, 1⟩ (opened (fileOf 3 1 4 0 [0x7C])))) =
      some (⟨1, 0, 255, 1⟩, 15, 1, 0, 0, ⟨1, 0, 255, 1⟩) := by rfl

/-- D1. -/
theorem test_diff_fields :
    look 15 (step (having ⟨10, 10, 10, 255⟩ (opened (fileOf 3 1 4 0 [0x5B])))) =
      some (⟨9, 10, 11, 255⟩, 15, 1, 0, 0, ⟨9, 10, 11, 255⟩) := by rfl

/-- M6: red and blue take different nibbles. -/
theorem test_luma_nibbles :
    look 5 (step (having ⟨10, 20, 30, 40⟩ (opened (fileOf 3 1 4 0 [0x80, 0x0F])))) =
      some (⟨226, 244, 5, 40⟩, 16, 1, 0, 0, ⟨226, 244, 5, 40⟩) := by rfl

/-- M3: the largest deltas. -/
theorem test_luma_extremes :
    look 61 (step (having ⟨255, 255, 255, 255⟩ (opened (fileOf 3 1 4 0 [0xBF, 0xFF])))) =
      some (⟨37, 30, 37, 255⟩, 16, 1, 0, 0, ⟨37, 30, 37, 255⟩) := by rfl

/-- N2b: RUN 62 as the first chunk loads 61 and writes slot 53. -/
theorem test_run_loads_counter :
    look 53 (step (opened (fileOf 62 1 4 0 [0xFD]))) =
      some (⟨0, 0, 0, 255⟩, 15, 1, 61, 0, ⟨0, 0, 0, 255⟩) := by rfl

/-- N3: a run of 4 with 3 pixels to go is refused whole. -/
theorem test_run_overrun :
    look 53 (step (opened (fileOf 3 1 4 0 [0xC3]))) =
      some (⟨0, 0, 0, 255⟩, 14, 0, 0, 5, ⟨0, 0, 0, 0⟩) := by rfl

/-- N7's end: the continuation that emits the last pixel. -/
theorem test_run_continuation_ends_the_call :
    (after 3 (opened (fileOf 3 1 4 0 [0xC2]))).phase = .done ∧
    (after 3 (opened (fileOf 3 1 4 0 [0xC2]))).run = 0 ∧
    (after 3 (opened (fileOf 3 1 4 0 [0xC2]))).pos = 15 := by
  exact ⟨rfl, rfl, rfl⟩

/-! ## The header parse (H8, H9, H10r, H12, H13) -/

theorem test_header_error_order :
    lookHeader (stepWith .reject (started [0x71, 0x6F, 0x69, 0x67, 0, 0, 0, 0, 0, 0])) =
      some (4, 0, false, 0) ∧
    lookHeader (stepWith .reject (started [0x71, 0x6F, 0x69, 0x67, 0, 0, 0, 1, 0, 0, 0, 1, 5, 9])) =
      some (1, 0, false, 0) ∧
    lookHeader (stepWith .reject (started (fileOf 0 5 5 0 []))) = some (2, 0, false, 0) ∧
    lookHeader (stepWith .reject (started (fileOf 0 5 4 0 []))) = some (6, 0, false, 0) ∧
    lookHeader (stepWith .accept (started (fileOf 0 5 4 0 []))) = some (0, 14, true, 0) := by
  exact ⟨rfl, rfl, rfl, rfl, rfl⟩

theorem test_header_largest_image :
    lookHeader (step (started [0x71, 0x6F, 0x69, 0x66, 0xFF, 0xFF, 0xFF, 0xFF, 0xFF, 0xFF, 0xFF, 0xFF,
      4, 0])) = some (0, 14, true, 18446744065119617025) := by rfl

/-! ## The host's side -/

/-- X1, X2, X4, X5: `STATUS` after reset, busy, done and failed. -/
theorem test_status :
    regValue State.reset 1 = some 0 ∧ regValue (started onePixel) 1 = some 1 ∧
    regValue (opened onePixel) 1 = some 0x101 ∧ regValue finished 1 = some 0x102 ∧
    regValue (after 1 (opened (fileOf 1 1 4 0 []))) 1 = some 0x143 := by
  exact ⟨rfl, rfl, rfl, rfl, rfl⟩

/-- The boot sequence of R136 on `loadedFile` leads from reset to the state of `withFetchWord`. -/
theorem test_withFetchWord_is_the_boot_sequence :
    runSteps 4 (told State.reset [.placeInput 0 (loadedFile 8 0x0B), .writeReg 2 19, .writeReg 0 1,
      .wait]) = .next (State.reset.withFetchWord 8 0x0B) := by rfl

/-! ## The invariant on concrete states -/

/-- The invariant of a call on a 3 x 1 image whose header has been parsed. -/
theorem inv_opened_run : (opened (fileOf 3 1 4 0 [0xC2])).Inv := by
  constructor <;> decide

theorem inv_mid_run : (after 2 (opened (fileOf 3 1 4 0 [0xC2]))).Inv := by
  constructor <;> decide

theorem inv_started : (started onePixel).Inv := by
  constructor <;> decide

/-! ## A witness for the hypotheses of every statement -/

theorem witness_HardwareResetPutsEveryRegister :
    (told (opened onePixel) [.reset, .wait]).moves = .reset :: [.wait] := rfl

/-- START in each of the three phases that accept it, with the smallest and the largest value. -/
theorem witness_StartInitialisesTheCall :
    (told State.reset [.writeReg 0 1]).phase = .idle ∧ (told finished [.writeReg 0 1]).phase = .done ∧
    (told failed [.writeReg 0 0xFFFFFFFF]).phase = .error ∧
    (1 : Word32).getLsbD 0 = true ∧ (0xFFFFFFFF : Word32).getLsbD 0 = true := by
  exact ⟨rfl, rfl, rfl, rfl, rfl⟩

/-- A START while busy in either phase, a write without bit 0 in DONE, and a read. -/
theorem witness_CtrlWriteOtherwiseIgnored :
    (told (started onePixel) [.writeReg 0 1]).phase = .header ∧
    (told (opened onePixel) [.writeReg 0 1]).phase = .chunk ∧
    (told finished [.writeReg 0 0xFFFFFFFE]).moves = .writeReg 0 0xFFFFFFFE :: [] ∧
    (0xFFFFFFFE : Word32).getLsbD 0 = false ∧
    (told finished [.readReg 0]).moves = .readReg 0 :: [] := by
  exact ⟨rfl, rfl, rfl, rfl, rfl⟩

/-- Writes of each half outside a call and during one, reads of each half, and a header parse with 13
bytes. -/
theorem witness_InLenIsWrittenByHalvesOutsideACall :
    (State.reset.phase ≠ .header ∧ State.reset.phase ≠ .chunk ∧
      (told State.reset [.writeReg 2 0xFFFFFFFF]).moves = .writeReg 2 0xFFFFFFFF :: [] ∧
      (told State.reset [.writeReg 3 0xFFFFFFFF]).moves = .writeReg 3 0xFFFFFFFF :: []) ∧
    ((told (started onePixel) [.writeReg 2 0]).phase = .header ∧
      (told (opened onePixel) [.writeReg 3 0]).phase = .chunk) ∧
    (told (opened onePixel) [.readReg 2]).moves = .readReg 2 :: [] ∧
    (told (opened onePixel) [.readReg 3]).moves = .readReg 3 :: [] ∧
    (AtHeader (started (onePixel.take 13)) ∧ (started (onePixel.take 13)).inLen.toNat = 13) := by
  exact ⟨⟨by decide, by decide, rfl, rfl⟩, ⟨rfl, rfl⟩, rfl, rfl, ⟨⟨rfl, rfl⟩, rfl⟩⟩

/-- Reads of the first and last register and of a number past them, writes of the first and last
read-only register. -/
theorem witness_ReadsAndReadOnlyWritesChangeNothing :
    (told State.reset [.readReg 0]).moves = .readReg 0 :: [] ∧
    (told State.reset [.readReg 15]).moves = .readReg 15 :: [] ∧
    (told State.reset [.readReg 16]).moves = .readReg 16 :: [] ∧
    (told State.reset [.writeReg 1 1]).moves = .writeReg 1 1 :: [] ∧
    (told State.reset [.writeReg 4 1]).moves = .writeReg 4 1 :: [] ∧
    (told State.reset [.writeReg 15 1]).moves = .writeReg 15 1 :: [] := by
  exact ⟨rfl, rfl, rfl, rfl, rfl, rfl⟩

theorem witness_StatusShowsPhaseErrAndHeaderValid :
    (told failed [.readReg 1]).moves = .readReg 1 :: [] ∧
    (told (opened onePixel) [.writeReg 1 0]).moves = .writeReg 1 0 :: [] := by
  exact ⟨rfl, rfl⟩

theorem witness_ReadOnlyRegistersReturnTheirFields :
    (4 ≤ 4 ∧ 4 ≤ 15 ∧ (told finished [.readReg 4]).moves = .readReg 4 :: []) ∧
    (4 ≤ 12 ∧ 12 ≤ 15 ∧ (told finished [.readReg 12]).moves = .readReg 12 :: []) ∧
    (4 ≤ 15 ∧ 15 ≤ 15 ∧ (told finished [.writeReg 15 7]).moves = .writeReg 15 7 :: []) := by
  exact ⟨⟨by decide, by decide, rfl⟩, ⟨by decide, by decide, rfl⟩, ⟨by decide, by decide, rfl⟩⟩

/-- The last byte `IN` can have, 2^64 - 2, is placed over a file. -/
theorem witness_PlacedInputReadsBack :
    (told finished [.placeInput (2 ^ 64 - 2) [7]]).phase ≠ .header ∧
    (told finished [.placeInput (2 ^ 64 - 2) [7]]).phase ≠ .chunk ∧
    (told finished [.placeInput (2 ^ 64 - 2) [7]]).inBuf.wf = true ∧
    2 ^ 64 - 2 + [(7 : Byte)].length ≤ 2 ^ 64 - 1 := by
  exact ⟨by decide, by decide, by decide, by decide⟩

theorem witness_InputWriteStops :
    ((told (started onePixel) [.placeInput 0 [7]]).phase = .header ∧
      (told (opened onePixel) [.placeInput 0 [7]]).phase = .chunk) ∧
    ((told finished [.placeInput (2 ^ 64 - 1) [7]]).phase ≠ .header ∧
      (told finished [.placeInput (2 ^ 64 - 1) [7]]).phase ≠ .chunk ∧
      2 ^ 64 - 1 < 2 ^ 64 - 1 + [(7 : Byte)].length) := by
  exact ⟨⟨rfl, rfl⟩, by decide, by decide, by decide⟩

/-- A step of the decoder, and a step of the host that does change `IN`. -/
theorem witness_OnlyTheHostWritesInput :
    (∃ t, step (opened onePixel) = .next t) ∧
    (∃ t, step (told finished [.placeInput 0 [7]]) = .next t) ∧
    (∃ t, step (told finished [.writeReg 3 1]) = .next t) := by
  exact ⟨⟨_, rfl⟩, ⟨_, rfl⟩, ⟨_, rfl⟩⟩

theorem witness_OutOnlyGrows :
    ∃ t, (opened (fileOf 3 1 4 0 [0xC2])).Inv ∧ step (opened (fileOf 3 1 4 0 [0xC2])) = .next t ∧
      ¬ StartNext (opened (fileOf 3 1 4 0 [0xC2])) ∧
      ¬ ResetNext (opened (fileOf 3 1 4 0 [0xC2])) := by
  refine ⟨_, inv_opened_run, rfl, ?_, ?_⟩
  · rintro ⟨h, _⟩
    exact absurd h (by decide)
  · rintro ⟨later, h⟩
    exact List.cons_ne_nil _ _ h.symm

/-- The one element of a finished call, and the first offset past it. -/
theorem witness_OutputByteOrder :
    finished.out[0]? = some ⟨0, 0, 0, 255⟩ ∧ 4 * finished.out.length ≤ 4 := by
  exact ⟨rfl, by decide⟩

/-- A file of exactly 14 bytes whose header is accepted, a zero width accepted under ACCEPT, and a later
step of a call. -/
theorem witness_HeaderParseLatchesTheHeader :
    (∃ t, AtHeader (started (onePixel.take 14)) ∧
      stepWith .reject (started (onePixel.take 14)) = .next t ∧ t.phase ≠ .error ∧ t.npix ≠ 0) ∧
    (∃ t, AtHeader (started (fileOf 0 5 3 1 [])) ∧
      stepWith .accept (started (fileOf 0 5 3 1 [])) = .next t ∧ t.phase ≠ .error ∧ t.npix = 0) ∧
    (∃ t, (opened onePixel).phase = .chunk ∧ stepWith .reject (opened onePixel) = .next t ∧
      ¬ ResetNext (opened onePixel)) := by
  refine ⟨⟨_, ⟨rfl, rfl⟩, rfl, by decide, by decide⟩, ⟨_, ⟨rfl, rfl⟩, rfl, by decide, rfl⟩, _, rfl, rfl, ?_⟩
  rintro ⟨later, h⟩
  exact List.cons_ne_nil _ _ h.symm

/-- H2, S4, H6, H7 and H11: one file for each error, and one header every check passes. -/
theorem witness_HeaderErrorsComeInOrder :
    (AtHeader (started (onePixel.take 13)) ∧ (started (onePixel.take 13)).inLen.toNat < 14) ∧
    (14 ≤ (started [0x71, 0x6F, 0x69, 0x67, 0, 0, 0, 1, 0, 0, 0, 1, 4, 0]).inLen.toNat ∧
      ¬ MagicGood (started [0x71, 0x6F, 0x69, 0x67, 0, 0, 0, 1, 0, 0, 0, 1, 4, 0])) ∧
    (MagicGood (started (fileOf 1 1 0 0 [])) ∧ ¬ ChannelsGood (started (fileOf 1 1 0 0 []))) ∧
    (MagicGood (started (fileOf 1 1 3 2 [])) ∧ ChannelsGood (started (fileOf 1 1 3 2 [])) ∧
      ¬ ColorspaceGood (started (fileOf 1 1 3 2 []))) ∧
    (MagicGood (started (fileOf 7 0 3 1 [])) ∧ ChannelsGood (started (fileOf 7 0 3 1 [])) ∧
      ColorspaceGood (started (fileOf 7 0 3 1 [])) ∧ bigEndianAt (started (fileOf 7 0 3 1 [])) 8 = 0) ∧
    (bigEndianAt (started onePixel) 4 ≠ 0 ∧ bigEndianAt (started onePixel) 8 ≠ 0 ∧
      ChannelsGood (started onePixel) ∧ ColorspaceGood (started onePixel) ∧
      MagicGood (started onePixel)) := by
  refine ⟨⟨⟨rfl, rfl⟩, by decide⟩, ⟨by decide, fun h => absurd h.f (by decide)⟩, ⟨?_, by
    unfold ChannelsGood; decide⟩, ⟨?_, .inl rfl, by unfold ColorspaceGood; decide⟩,
    ⟨?_, .inl rfl, .inr rfl, rfl⟩, by decide, by decide, .inr rfl, .inl rfl, ?_⟩ <;>
    constructor <;> decide

/-- H10r: under REJECT the only error of this header is `ZeroDimension`. -/
theorem witness_ZeroDimensionFollowsThePolicy :
    AtHeader (started (fileOf 0 5 4 0 [])) ∧
    (∀ e t, stepWith .reject (started (fileOf 0 5 4 0 [])) = .next t →
      RaisedFrom e (started (fileOf 0 5 4 0 [])) t → e = .zeroDimension) ∧
    bigEndianAt (started (fileOf 0 5 4 0 [])) 4 = 0 := by
  refine ⟨⟨rfl, rfl⟩, fun e t h hr => ?_, rfl⟩
  have h6 : t = raiseError .zeroDimension (started (fileOf 0 5 4 0 [])) :=
    (Host.Outcome.next.inj h).symm
  have he := hr.err
  rw [h6] at he
  revert he
  cases e <;> decide

/-- Two files that differ only past the header, in a state with another previous pixel. -/
theorem witness_HeaderOutcomeDependsOnHeaderBytesOnly :
    AtHeader (started onePixel) ∧ AtHeader (having ⟨1, 2, 3, 4⟩ (started (fileOf 1 1 4 0 [0x00]))) ∧
    (having ⟨1, 2, 3, 4⟩ (started (fileOf 1 1 4 0 [0x00]))).inLen = (started onePixel).inLen ∧
    ∀ a, a < 14 → inByte (having ⟨1, 2, 3, 4⟩ (started (fileOf 1 1 4 0 [0x00]))) a =
      inByte (started onePixel) a := by
  exact ⟨⟨rfl, rfl⟩, ⟨rfl, rfl⟩, rfl, by decide⟩

/-- All payload bytes, and one fewer, for the longest chunk. -/
theorem witness_TagByteAloneFixesTheLength :
    [(1 : Byte), 2, 3, 4].length + 1 = 5 ∧ chunkLen 0xFF = 5 ∧ [(1 : Byte), 2, 3].length + 1 < 5 := by
  decide

/-- The first and the last tag byte of each kind. -/
theorem witness_EveryTagByteDecodes :
    ((0x00 : Byte).toNat ≤ 0x3F ∧ (0x3F : Byte).toNat ≤ 0x3F) ∧
    (0x40 ≤ (0x40 : Byte).toNat ∧ (0x7F : Byte).toNat ≤ 0x7F) ∧
    (0x80 ≤ (0x80 : Byte).toNat ∧ (0xBF : Byte).toNat ≤ 0xBF) ∧
    (0xC0 ≤ (0xC0 : Byte).toNat ∧ (0xFD : Byte).toNat ≤ 0xFD) ∧
    (0xFE : Byte).toNat = 0xFE ∧ (0xFF : Byte).toNat = 0xFF := by
  decide

/-- Operands at both ends of every range. -/
theorem witness_DecodeOfEncode :
    Instr.wellFormed (.rgb 0 255 0) = true ∧ Instr.wellFormed (.rgba 0 255 0 255) = true ∧
    Instr.wellFormed (.index 63) = true ∧ Instr.wellFormed (.diff (-2) 1 1) = true ∧
    Instr.wellFormed (.luma (-32) 7 (-8)) = true ∧ Instr.wellFormed (.luma 31 (-8) 7) = true ∧
    Instr.wellFormed (.run 1) = true ∧ Instr.wellFormed (.run 62) = true := by
  decide

theorem witness_EncodeOfDecode :
    decode [0xBF, 0xFF, 0x00] = .ok (.luma 31 7 7, [0x00]) := by rfl

theorem witness_RepeatSpellsItsRuns : 1 ≤ 1 ∧ 1 ≤ 62 := by
  decide

/-- A run of exactly the remaining pixels: the longest and the shortest. -/
theorem witness_RunEmitsThePreviousPixel :
    (1 ≤ 62 ∧ 62 ≤ 62 ∧ (opened (fileOf 62 1 4 0 [])).count.toNat + 62 ≤
      (opened (fileOf 62 1 4 0 [])).npix.toNat) ∧
    (1 ≤ 1 ∧ 1 ≤ 62 ∧ (opened onePixel).count.toNat + 1 ≤ (opened onePixel).npix.toNat) := by
  decide

theorem witness_RunTooLongRaisesOverrun :
    (opened (fileOf 3 1 4 0 [])).npix.toNat < (opened (fileOf 3 1 4 0 [])).count.toNat + 4 ∧
    (opened (fileOf 3 1 4 0 [])).npix.toNat = (opened (fileOf 3 1 4 0 [])).count.toNat + 3 ∧ 1 ≤ 3 := by
  decide

theorem witness_OnlyRunOverruns :
    (opened (fileOf 3 1 4 0 [])).npix.toNat < (opened (fileOf 3 1 4 0 [])).count.toNat + 4 ∧
    (∃ t, exec (.run 4) (opened (fileOf 3 1 4 0 [])) = .next t ∧
      (opened (fileOf 3 1 4 0 [])).phase ≠ .error ∧ t.phase = .error) ∧
    ((after 2 (opened (fileOf 3 1 4 0 [0xC2]))).phase = .chunk ∧
      (after 2 (opened (fileOf 3 1 4 0 [0xC2]))).run ≠ 0 ∧
      (after 2 (opened (fileOf 3 1 4 0 [0xC2]))).moves = []) := by
  exact ⟨by decide, ⟨_, rfl, by decide, rfl⟩, rfl, by decide, rfl⟩

theorem witness_CacheWriteIsOneSlot :
    (∃ t, exec (.index 0) (opened onePixel) = .next t ∧ t.count = (opened onePixel).count + 1) ∧
    (∃ t, exec (.run 1) (opened onePixel) = .next t ∧ t.count = (opened onePixel).count + 1 ∧
      (Instr.run 1).kind ≠ .index) := by
  exact ⟨⟨_, rfl, rfl⟩, ⟨_, rfl, rfl, by decide⟩⟩

theorem witness_IndexReturnsThePixelJustWritten :
    ∃ t, exec (.rgb 10 10 10) (opened (fileOf 3 1 4 0 [])) = .next t ∧
      t.count = (opened (fileOf 3 1 4 0 [])).count + 1 ∧ (Instr.rgb 10 10 10).kind ≠ .index ∧
      SlotOf 11 t.prev := by
  exact ⟨_, rfl, rfl, by decide, rfl⟩

theorem witness_HashFromANarrowAdder : 6 ≤ 6 := by
  decide

/-- Hashes of 95_test_vectors.md 2.1. -/
theorem test_hash :
    SlotOf 38 ⟨255, 255, 255, 255⟩ ∧ SlotOf 53 ⟨0, 0, 0, 255⟩ ∧ SlotOf 12 ⟨10, 20, 30, 40⟩ ∧
    pixelHash ⟨200, 100, 50, 7⟩ = 55 := by
  exact ⟨rfl, rfl, rfl, rfl⟩

/-- The chunk fills the buffer to its last byte. -/
theorem witness_StepRunsTheDecodedChunk :
    let s := opened (fileOf 3 1 4 0 [0xFE, 1, 2, 3])
    s.phase = .chunk ∧ s.run = 0 ∧ s.pos.toNat + 4 ≤ s.inLen.toNat ∧
      decode (memRead s s.pos.toNat 4) = .ok (.rgb 1 2 3, []) ∧ s.moves = [] ∧
      (told s [.wait]).moves = .wait :: [] ∧
      decode (memRead (told s [.wait]) s.pos.toNat 4) = .ok (.rgb 1 2 3, []) := by
  exact ⟨rfl, rfl, by decide, rfl, rfl, rfl, rfl⟩

theorem witness_RgbChunkStep :
    (AtChunk (opened (fileOf 3 1 4 0 [0xFE, 1, 2, 3])) ∧
      inByte (opened (fileOf 3 1 4 0 [0xFE, 1, 2, 3])) 14 = 0xFE ∧
      (opened (fileOf 3 1 4 0 [0xFE, 1, 2, 3])).pos.toNat + 4 =
        (opened (fileOf 3 1 4 0 [0xFE, 1, 2, 3])).inLen.toNat) ∧
    (AtChunk (opened (fileOf 3 1 4 0 [0xFE, 1, 2])) ∧
      inByte (opened (fileOf 3 1 4 0 [0xFE, 1, 2])) 14 = 0xFE ∧
      (opened (fileOf 3 1 4 0 [0xFE, 1, 2])).pos.toNat + 3 =
        (opened (fileOf 3 1 4 0 [0xFE, 1, 2])).inLen.toNat) := by
  exact ⟨⟨⟨rfl, rfl, rfl⟩, rfl, rfl⟩, ⟨rfl, rfl, rfl⟩, rfl, rfl⟩

theorem witness_RgbaChunkStep :
    (AtChunk (opened (fileOf 3 1 4 0 [0xFF, 1, 2, 3, 4])) ∧
      inByte (opened (fileOf 3 1 4 0 [0xFF, 1, 2, 3, 4])) 14 = 0xFF ∧
      (opened (fileOf 3 1 4 0 [0xFF, 1, 2, 3, 4])).pos.toNat + 5 =
        (opened (fileOf 3 1 4 0 [0xFF, 1, 2, 3, 4])).inLen.toNat) ∧
    (AtChunk (opened (fileOf 3 1 4 0 [0xFF])) ∧
      inByte (opened (fileOf 3 1 4 0 [0xFF])) 14 = 0xFF ∧
      (opened (fileOf 3 1 4 0 [0xFF])).pos.toNat + 1 =
        (opened (fileOf 3 1 4 0 [0xFF])).inLen.toNat) := by
  exact ⟨⟨⟨rfl, rfl, rfl⟩, rfl, rfl⟩, ⟨rfl, rfl, rfl⟩, rfl, rfl⟩

/-- The highest slot number, with the tag byte the last of the buffer. -/
theorem witness_IndexChunkStep :
    AtChunk (opened (fileOf 3 1 4 0 [0x3F])) ∧
    (inByte (opened (fileOf 3 1 4 0 [0x3F])) 14).toNat = (63 : Fin 64).val ∧
    (opened (fileOf 3 1 4 0 [0x3F])).pos.toNat < (opened (fileOf 3 1 4 0 [0x3F])).inLen.toNat := by
  exact ⟨⟨rfl, rfl, rfl⟩, rfl, by decide⟩

theorem witness_DiffChunkStep :
    AtChunk (opened (fileOf 3 1 4 0 [0x7F])) ∧
    (opened (fileOf 3 1 4 0 [0x7F])).pos.toNat < (opened (fileOf 3 1 4 0 [0x7F])).inLen.toNat ∧
    (inByte (opened (fileOf 3 1 4 0 [0x7F])) 14).toNat / 64 = 1 := by
  exact ⟨⟨rfl, rfl, rfl⟩, by decide, rfl⟩

theorem witness_LumaChunkStep :
    (AtChunk (opened (fileOf 3 1 4 0 [0xBF, 0xFF])) ∧
      (inByte (opened (fileOf 3 1 4 0 [0xBF, 0xFF])) 14).toNat / 64 = 2 ∧
      (opened (fileOf 3 1 4 0 [0xBF, 0xFF])).pos.toNat + 2 =
        (opened (fileOf 3 1 4 0 [0xBF, 0xFF])).inLen.toNat) ∧
    (AtChunk (opened (fileOf 3 1 4 0 [0x80])) ∧
      (inByte (opened (fileOf 3 1 4 0 [0x80])) 14).toNat / 64 = 2 ∧
      (opened (fileOf 3 1 4 0 [0x80])).pos.toNat + 1 =
        (opened (fileOf 3 1 4 0 [0x80])).inLen.toNat) := by
  exact ⟨⟨⟨rfl, rfl, rfl⟩, rfl, rfl⟩, ⟨rfl, rfl, rfl⟩, rfl, rfl⟩

/-- N2b and N3: a run of exactly the remaining pixels, and one of one pixel more. -/
theorem witness_RunChunkStep :
    (AtChunk (opened (fileOf 62 1 4 0 [0xFD])) ∧
      (inByte (opened (fileOf 62 1 4 0 [0xFD])) 14).toNat = 0xC0 + (62 - 1) ∧
      (opened (fileOf 62 1 4 0 [0xFD])).pos.toNat < (opened (fileOf 62 1 4 0 [0xFD])).inLen.toNat ∧
      (opened (fileOf 62 1 4 0 [0xFD])).count.toNat + 62 =
        (opened (fileOf 62 1 4 0 [0xFD])).npix.toNat) ∧
    (AtChunk (opened (fileOf 3 1 4 0 [0xC3])) ∧
      (inByte (opened (fileOf 3 1 4 0 [0xC3])) 14).toNat = 0xC0 + (4 - 1) ∧
      (opened (fileOf 3 1 4 0 [0xC3])).npix.toNat + 1 =
        (opened (fileOf 3 1 4 0 [0xC3])).count.toNat + 4) := by
  exact ⟨⟨⟨rfl, rfl, rfl⟩, rfl, by decide, rfl⟩, ⟨rfl, rfl, rfl⟩, rfl, rfl⟩

/-- The continuation that emits the last pixel. -/
theorem witness_RunContinuationStep :
    let s := after 2 (opened (fileOf 3 1 4 0 [0xC2]))
    s.phase = .chunk ∧ s.run = 1 ∧ s.moves = [] ∧ s.Inv ∧ s.count + 1 = s.npix := by
  exact ⟨rfl, rfl, rfl, inv_mid_run, rfl⟩

/-- A cut chunk, a missing tag byte and a whole chunk. -/
theorem witness_TruncatedExactlyWhenTheChunkIsCut :
    AtChunk (opened (fileOf 3 1 4 0 [0x80])) ∧ AtChunk (opened (fileOf 3 1 4 0 [])) ∧
    AtChunk (opened (fileOf 3 1 4 0 [0x80, 0x88])) := by
  exact ⟨⟨rfl, rfl, rfl⟩, ⟨rfl, rfl, rfl⟩, ⟨rfl, rfl, rfl⟩⟩

theorem witness_RunEmitsExactlyNPixels :
    let s := opened (fileOf 3 1 4 0 [0xC2])
    AtChunk s ∧ s.Inv ∧ s.pos.toNat < s.inLen.toNat ∧
      (inByte s s.pos.toNat).toNat = 0xC0 + (3 - 1) ∧ s.count.toNat + 3 = s.npix.toNat := by
  exact ⟨⟨rfl, rfl, rfl⟩, inv_opened_run, by decide, rfl, rfl⟩

theorem witness_ChannelCountSteersNoPixel :
    (opened onePixel).phase = .chunk ∧ (opened onePixel).moves = [] := by
  exact ⟨rfl, rfl⟩

theorem witness_DecoderAlwaysStepsDuringACall :
    ((started onePixel).phase = .header ∧ (started onePixel).moves = []) ∧
    ((opened onePixel).phase = .chunk ∧ (opened onePixel).moves = []) := by
  exact ⟨⟨rfl, rfl⟩, rfl, rfl⟩

theorem witness_NoStepOutsideACall :
    (State.reset.phase = .idle ∧ State.reset.moves = []) ∧
    (finished.phase = .done ∧ finished.moves = []) ∧ (failed.phase = .error ∧ failed.moves = []) ∧
    (told finished [.wait]).moves = .wait :: [] := by
  exact ⟨⟨rfl, rfl⟩, ⟨rfl, rfl⟩, ⟨rfl, rfl⟩, rfl⟩

theorem witness_DecoderDoesNotSeeTheHostsMoves :
    (opened onePixel).phase.busy = true ∧
    ∃ t, step { told (opened onePixel) [.wait, .reset] with moves := [] } = .next t := by
  exact ⟨rfl, _, rfl⟩

theorem witness_ErrorEntryWritesOnlyErrAndPhase :
    ∃ t, step (opened (fileOf 3 1 4 0 [0xC3])) = .next t ∧
      (opened (fileOf 3 1 4 0 [0xC3])).phase ≠ .error ∧ t.phase = .error := by
  exact ⟨_, rfl, by decide, rfl⟩

/-- One witness for each way out. -/
theorem witness_ErrorIsLeftByStartOrResetOnly :
    (∃ t, step (told failed [.writeReg 0 1]) = .next t ∧ t.phase ≠ .error) ∧
    (∃ t, step (told failed [.reset]) = .next t ∧ t.phase ≠ .error) ∧ failed.phase = .error := by
  exact ⟨⟨_, rfl, by decide⟩, ⟨_, rfl, by decide⟩, rfl⟩

theorem witness_ResultsStayUntilStartOrReset :
    (∃ t, step (told finished [.writeReg 2 0]) = .next t) ∧
    (told finished [.writeReg 2 0]).phase = .done ∧
    ¬ StartNext (told finished [.writeReg 2 0]) ∧ ¬ ResetNext (told finished [.writeReg 2 0]) ∧
    ((∃ t, step (told failed [.readReg 1]) = .next t) ∧ (told failed [.readReg 1]).phase = .error) := by
  refine ⟨⟨_, rfl⟩, rfl, ?_, ?_, ⟨_, rfl⟩, rfl⟩
  · rintro ⟨_, v, later, h, _⟩
    simp [told] at h
  · rintro ⟨later, h⟩
    simp [told] at h

theorem witness_InvKeptByEveryStep :
    (started onePixel).Inv ∧ (opened (fileOf 3 1 4 0 [0xC2])).Inv ∧
    (∃ t, step (opened (fileOf 3 1 4 0 [0xC2])) = .next t) := by
  exact ⟨inv_started, inv_opened_run, _, rfl⟩

/-- A chunk step that reaches the end of the input, where `POS ≤ IN_LEN` is an equality, and START. -/
theorem witness_PosMayPassInLenAfterACall :
    ((opened onePixel).pos.toNat ≤ (opened onePixel).inLen.toNat ∧
      ∃ t, step (opened onePixel) = .next t ∧ t.pos.toNat = t.inLen.toNat) ∧
    (finished.pos.toNat ≤ finished.inLen.toNat ∧
      ∃ t, step (told finished [.writeReg 0 1]) = .next t) := by
  exact ⟨⟨by decide, _, rfl, rfl⟩, by decide, _, rfl⟩

/-- The result of a call that is DONE: all six header registers and the pixels (R128, X4). -/
theorem test_result_of_a_call :
    callResult finished = some (.inr (⟨0x716F6966, 1, 1, 4, 0, true⟩, [⟨0, 0, 0, 255⟩])) ∧
    callResult failed = some (.inl 4) := by
  exact ⟨rfl, rfl⟩

/-- A whole run from reset: place the file, write its length, START, two steps of the decoder. -/
theorem witness_DoneMeansExactlyWidthTimesHeight : ∃ s, Reachable s ∧ s.phase = .done :=
  ⟨_, ⟨[.placeInput 0 onePixel, .writeReg 2 15, .writeReg 0 1, .wait, .wait], 5, rfl⟩, rfl⟩

theorem witness_CallEndsWithinItsBound :
    (started onePixel).Inv ∧ AtHeader (started onePixel) := ⟨inv_started, rfl, rfl⟩

/-- The same file, after reset and after an earlier call on it, with a longer buffer behind it. -/
theorem witness_SameFileSameOutcome :
    let s := told (placed onePixel) [.writeReg 0 1]
    let u := { told finished [.writeReg 0 3] with inBuf := finished.inBuf.write 15 0xAA }
    s.phase.busy = false ∧ u.phase.busy = false ∧ (1 : Word32).getLsbD 0 = true ∧
      (3 : Word32).getLsbD 0 = true ∧ s.moves = [.writeReg 0 1] ∧ u.moves = [.writeReg 0 3] ∧
      SameFile s u ∧ ∃ t, runSteps 3 s = .next t := by
  refine ⟨rfl, rfl, rfl, rfl, rfl, rfl, ⟨rfl, ?_⟩, _, rfl⟩
  decide

/-- E3 in small: the byte after the last chunk differs. -/
theorem witness_TrailingBytesAreNeverRead :
    let s := opened (onePixel ++ [0xFF])
    let u := { s with inBuf := s.inBuf.write 15 0x00 }
    s.phase.busy = true ∧ s.moves = [] ∧
      ∃ t, runSteps 1 s = .next t ∧ t.phase = .done ∧ u = { s with inBuf := u.inBuf } ∧
        t.pos.toNat = 15 ∧ ∀ a, a < 15 → inByte u a = inByte s a := by
  exact ⟨rfl, rfl, _, rfl, rfl, rfl, rfl, by decide⟩

end Sys2Proof.Tests
end

/-! How the machine comes to ERROR (00_scope.md R10): only a decoder step enters it, and that step is a
raised error. -/

namespace Sys2Proof.Machine

/-! ## Entering ERROR -/

/-- A decoder step is taken during a call only (R89). -/
theorem decoderStep_next_busy {pol : ZeroDimPolicy} {s t : State}
    (h : decoderStep pol s = .next t) : s.phase.busy = true := by
  rcases decoderStep_cases h with ⟨hp, _⟩ | ⟨hp, _⟩ <;> simp [hp, Phase.busy]

/-- A latched header leads to DONE or CHUNK, never to ERROR. -/
theorem latchHeader_phase_ne_error (m w h : Word32) (c cs : Byte) (s : State) :
    (latchHeader m w h c cs s).phase ≠ .error := by
  rw [latchHeader_phase]
  split <;> simp

/-- An emitted pixel keeps the phase or ends the call in DONE, so it never enters ERROR. -/
theorem Emitted.phase_ne_error {p : Pixel} {len : Nat} {s t : State} (h : Emitted p len s t)
    (hs : s.phase ≠ .error) : t.phase ≠ .error := by
  rw [h.phase]
  split
  · simp
  · exact hs

/-- A decoder step that ends in ERROR is a raised error (R10, R118). -/
theorem decoderStep_error_raised {pol : ZeroDimPolicy} {s t : State}
    (h : decoderStep pol s = .next t) (ht : t.phase = .error) : ∃ e, RaisedFrom e s t := by
  rcases decoderStep_cases h with ⟨_, rfl⟩ | ⟨hp, hc⟩
  · rcases headerStep_cases pol s with ⟨e, _, he⟩ | ⟨_, he⟩
    · exact ⟨e, he ▸ raisedFrom_raiseError e s⟩
    · rw [he] at ht
      exact absurd ht (latchHeader_phase_ne_error _ _ _ _ _ s)
  · rcases chunkStep_emits_or_raises hc with ⟨e, rfl, _⟩ | ⟨p, len, hemit⟩
    · exact ⟨e, raisedFrom_raiseError e s⟩
    · exact absurd ht (hemit.phase_ne_error (by simp [hp]))

/-- No register write enters ERROR: START goes to HEADER, and any other write keeps the phase. -/
theorem writeRegister_phase_ne_error (n : Nat) (v : Word32) {s : State} (hs : s.phase ≠ .error) :
    (writeRegister n v s).phase ≠ .error := by
  rcases writeRegister_cases n v s with ⟨_, _, _, h⟩ | ⟨_, _, len, h⟩ | h <;> rw [h]
  · simp
  · exact hs
  · exact hs

/-- A step that enters ERROR is the decoder's, on the state without the host's wait: no move of the
host enters it. -/
theorem stepWith_enters_error {pol : ZeroDimPolicy} {s t : State} (h : stepWith pol s = .next t)
    (hs : s.phase ≠ .error) (ht : t.phase = .error) :
    decoderStep pol { s with moves := s.moves.tail } = .next t := by
  rcases stepWith_cases h with ⟨hm, hd⟩ | ⟨later, hm, _, hd⟩ | ⟨later, _, _, rfl⟩ |
    ⟨n, v, later, _, rfl⟩ | ⟨n, later, _, rfl⟩ | ⟨k, later, _, rfl⟩ |
    ⟨offset, bytes, later, _, _, _, rfl⟩ | ⟨later, _, rfl⟩
  · have hsame : { s with moves := s.moves.tail } = s := by
      rw [hm, List.tail_nil, ← hm]
    rw [hsame]
    exact hd
  · rw [hm]
    exact hd
  · exact absurd ht hs
  · exact absurd ht (writeRegister_phase_ne_error n v hs)
  · exact absurd ht hs
  · exact absurd ht hs
  · exact absurd ht hs
  · simp at ht

/-- Settles O51: a step into ERROR is a decoder step, and that step is a raised error. -/
theorem errorEntryWritesOnlyErrAndPhase : Obligations.ErrorEntryWritesOnlyErrAndPhase := by
  unfold Obligations.ErrorEntryWritesOnlyErrAndPhase
  intro s t h hs ht
  have hd := stepWith_enters_error h hs ht
  have hbusy := decoderStep_next_busy hd
  exact ⟨hbusy, decoderStep_error_raised hd ht⟩

end Sys2Proof.Machine

/-! The host's register window (10_state.md R28 to R37), what a step may write of the host's input
(20_memory.md R44, R51), and that the channel count steers no pixel (R26). -/

namespace Sys2Proof.Machine

/-! ## Words and phases as the window shows them -/

/-- Two joined words as a number: the left one is the high part. -/
theorem toNat_append_eq {n m : Nat} (x : BitVec n) (y : BitVec m) :
    (x ++ y).toNat = x.toNat * 2 ^ m + y.toNat := by
  rw [BitVec.toNat_append, Nat.shiftLeft_eq, Nat.mul_comm, Nat.two_pow_add_eq_or_of_lt y.isLt]

theorem lowHalf_toNat (x : Word64) : (x.extractLsb' 0 32).toNat = x.toNat % 2 ^ 32 := by
  simp [BitVec.extractLsb'_toNat]

theorem highHalf_toNat (x : Word64) : (x.extractLsb' 32 32).toNat = x.toNat / 2 ^ 32 := by
  have := x.isLt
  rw [BitVec.extractLsb'_toNat, Nat.shiftRight_eq_div_pow]
  omega

/-- A call is in progress in HEADER and in CHUNK (R29). -/
theorem busy_iff (p : Phase) : p.busy = true ↔ p = .header ∨ p = .chunk := by
  cases p <;> simp [Phase.busy]

theorem busy_eq_false {p : Phase} (hh : p ≠ .header) (hc : p ≠ .chunk) : p.busy = false := by
  rw [← Bool.not_eq_true, busy_iff]
  tauto

/-- `STATUS` as a number (R30): `PHASE_V` in bits 1:0, `ERR` in bits 7:4, `HDR_VALID` in bit 8. -/
theorem statusWord_toNat (s : State) :
    (statusWord s).toNat =
      s.phase.visible.toNat + 16 * s.err.toNat + (if s.hdrValid then 256 else 0) := by
  simp only [statusWord, toNat_append_eq]
  cases s.hdrValid <;> simp <;> omega

/-! ## One step for a register move of the host -/

theorem step_readReg {s : State} {n : Nat} {later : List HostMove}
    (hm : s.moves = .readReg n :: later) :
    step s = .next
      { s with moves := later, replies := s.replies ++ [.reg n (regValue s n)] } :=
  stepWith_cons _ hm

theorem step_writeReg {s : State} {n : Nat} {v : Word32} {later : List HostMove}
    (hm : s.moves = .writeReg n v :: later) :
    step s = .next (writeRegister n v { s with moves := later }) :=
  stepWith_cons _ hm

/-- Only `CTRL` and the halves of `IN_LEN` can be written (R36, R37). -/
theorem writeRegister_readOnly {n : Nat} (v : Word32) (s : State) (h0 : n ≠ 0) (h2 : n ≠ 2)
    (h3 : n ≠ 3) : writeRegister n v s = s := by
  rcases writeRegister_cases n v s with ⟨h, _⟩ | ⟨_, h, _⟩ | h
  · exact absurd h h0
  · rcases h with h | h
    · exact absurd h h2
    · exact absurd h h3
  · exact h

theorem step_writeReg_readOnly {s : State} {n : Nat} {v : Word32} {later : List HostMove}
    (h0 : n ≠ 0) (h2 : n ≠ 2) (h3 : n ≠ 3) (hm : s.moves = .writeReg n v :: later) :
    step s = .next { s with moves := later } := by
  rw [step_writeReg hm, writeRegister_readOnly v _ h0 h2 h3]

/-! ## Reads, and writes of read-only registers -/

/-- Settles O5: a read appends its reply, and a write of a read-only register is the identity. -/
theorem readsAndReadOnlyWritesChangeNothing : Obligations.ReadsAndReadOnlyWritesChangeNothing := by
  unfold Obligations.ReadsAndReadOnlyWritesChangeNothing
  intro s n v later
  exact ⟨fun hm => ⟨_, step_readReg hm⟩, step_writeReg_readOnly⟩

/-- Settles O6, by `STATUS` as a number. -/
theorem statusShowsPhaseErrAndHeaderValid : Obligations.StatusShowsPhaseErrAndHeaderValid := by
  unfold Obligations.StatusShowsPhaseErrAndHeaderValid
  intro s v later
  refine ⟨fun hm => ⟨statusWord s, step_readReg hm, ?_⟩,
    step_writeReg_readOnly (by decide) (by decide) (by decide)⟩
  rw [statusWord_toNat]
  cases s.phase <;> rfl

/-- Every register number of the window answers a read with a value (R28). -/
theorem regValue_answers (s : State) {n : Nat} (h : n ≤ 15) : ∃ r, regValue s n = some r := by
  interval_cases n <;> exact ⟨_, rfl⟩

/-- The reserved registers read 0 (R36). -/
theorem regValue_reserved (s : State) {n : Nat} (h13 : 13 ≤ n) (h15 : n ≤ 15) :
    regValue s n = some 0 := by
  interval_cases n <;> rfl

/-- Settles O7, by the value `regValue` gives each number. -/
theorem readOnlyRegistersReturnTheirFields : Obligations.ReadOnlyRegistersReturnTheirFields := by
  unfold Obligations.ReadOnlyRegistersReturnTheirFields
  intro s n later h4 h15
  refine ⟨fun hm => ?_, fun v =>
    step_writeReg_readOnly (by omega) (by omega) (by omega)⟩
  obtain ⟨r, hr⟩ := regValue_answers s h15
  have hvalue : ∀ w, regValue s n = some w → r = w := fun w hw => Option.some.inj (hr.symm.trans hw)
  refine ⟨r, hr ▸ step_readReg hm, ?_, ?_, ?_, ?_, ?_, ?_, ?_, ?_, ?_, ?_⟩
  · rintro rfl; exact hvalue _ rfl
  · rintro rfl; exact hvalue _ rfl
  · rintro rfl; exact hvalue _ rfl
  · rintro rfl; rw [hvalue _ rfl, BitVec.toNat_setWidth_of_le (by decide)]
  · rintro rfl; rw [hvalue _ rfl, BitVec.toNat_setWidth_of_le (by decide)]
  · rintro rfl; rw [hvalue _ rfl, lowHalf_toNat]
  · rintro rfl; rw [hvalue _ rfl, highHalf_toNat]
  · rintro rfl; rw [hvalue _ rfl, lowHalf_toNat]
  · rintro rfl; rw [hvalue _ rfl, highHalf_toNat]
  · exact fun h13 => hvalue _ (regValue_reserved s h13 h15)

/-! ## `IN_LEN` -/

/-- A register write leaves `IN` alone (R44). -/
@[simp] theorem writeRegister_inBuf (n : Nat) (v : Word32) (s : State) :
    (writeRegister n v s).inBuf = s.inBuf := by
  rcases writeRegister_cases n v s with ⟨_, _, _, h⟩ | ⟨_, _, len, h⟩ | h
  · rw [h, startCall_inBuf]
  · rw [h]
  · rw [h]

/-- A register write changes `IN_LEN` only through one of its halves, outside a call (R31). -/
theorem writeRegister_inLen (n : Nat) (v : Word32) (s : State) :
    (writeRegister n v s).inLen = s.inLen ∨ s.phase.busy = false ∧ (n = 2 ∨ n = 3) := by
  rcases writeRegister_cases n v s with ⟨_, _, _, h⟩ | ⟨hb, hn, _⟩ | h
  · exact .inl (by rw [h, startCall_inLen])
  · exact .inr ⟨hb, hn⟩
  · exact .inl (by rw [h])

/-- During a call a write of either half is ignored (R31). -/
theorem step_writeLen_busy {s : State} {n : Nat} {v : Word32} {later : List HostMove}
    (hb : s.phase.busy = true) (hn : n = 2 ∨ n = 3) (hm : s.moves = .writeReg n v :: later) :
    step s = .next { s with moves := later } := by
  rw [step_writeReg hm]
  rcases hn with rfl | rfl
  · exact congrArg _ (if_pos hb)
  · exact congrArg _ (if_pos hb)

/-- Outside a call a write of `IN_LEN_LO` replaces bits 31:0 (R31). -/
theorem step_writeLenLo_idle {s : State} {v : Word32} {later : List HostMove}
    (hb : s.phase.busy = false) (hm : s.moves = .writeReg 2 v :: later) :
    ∃ len : Word64, step s = .next { s with moves := later, inLen := len } ∧
      len.toNat = s.inLen.toNat / 2 ^ 32 * 2 ^ 32 + v.toNat := by
  refine ⟨s.inLen.extractLsb' 32 32 ++ v, ?_, by rw [toNat_append_eq, highHalf_toNat]⟩
  exact (step_writeReg hm).trans (congrArg _ (if_neg (by simp [hb])))

/-- Outside a call a write of `IN_LEN_HI` replaces bits 63:32 (R31). -/
theorem step_writeLenHi_idle {s : State} {v : Word32} {later : List HostMove}
    (hb : s.phase.busy = false) (hm : s.moves = .writeReg 3 v :: later) :
    ∃ len : Word64, step s = .next { s with moves := later, inLen := len } ∧
      len.toNat = v.toNat * 2 ^ 32 + s.inLen.toNat % 2 ^ 32 := by
  refine ⟨v ++ s.inLen.extractLsb' 0 32, ?_, by rw [toNat_append_eq, lowHalf_toNat]⟩
  exact (step_writeReg hm).trans (congrArg _ (if_neg (by simp [hb])))

/-- A decoder step leaves `IN_LEN` and `IN` as they are (R31, R44). -/
theorem decoderStep_input {pol : ZeroDimPolicy} {s t : State} (h : decoderStep pol s = .next t) :
    SameInput s t := by
  obtain ⟨hlen, hbuf, _⟩ := decoderStep_frame h
  exact sameInput_of_eq hlen hbuf

/-- In HEADER with no move of the host a step is the header parse (R77). -/
theorem step_header {s : State} (h : AtHeader s) :
    step s = .next (headerStep Config.zeroDimPolicy s) := by
  rw [step_eq, stepWith_nil _ h.moves, decoderStep, h.phase]

/-- A file shorter than a header makes the parse raise `Truncated` (R78). -/
theorem headerStep_short (pol : ZeroDimPolicy) {s : State} (h : s.inLen.toNat < 14) :
    headerStep pol s = raiseError .truncated s := by
  have he : headerError pol s = some .truncated := if_pos h
  simp only [headerStep, he]

/-- Settles O4, by what a write of either half does outside a call and during one. -/
theorem inLenIsWrittenByHalvesOutsideACall : Obligations.InLenIsWrittenByHalvesOutsideACall := by
  unfold Obligations.InLenIsWrittenByHalvesOutsideACall
  intro s v later
  refine ⟨fun hh hc => ⟨step_writeLenLo_idle (busy_eq_false hh hc),
    step_writeLenHi_idle (busy_eq_false hh hc)⟩, fun hp hm => ?_, fun hm => ?_, fun hm => ?_,
    fun hat hlen => ?_, fun pol t ht => (decoderStep_input ht).inLen⟩
  · have hb : s.phase.busy = true := (busy_iff _).2 hp
    rcases hm with hm | hm
    · exact step_writeLen_busy hb (.inl rfl) hm
    · exact step_writeLen_busy hb (.inr rfl) hm
  · exact ⟨s.inLen.extractLsb' 0 32, lowHalf_toNat _, step_readReg hm⟩
  · exact ⟨s.inLen.extractLsb' 32 32, highHalf_toNat _, step_readReg hm⟩
  · exact ⟨_, step_header hat,
      headerStep_short Config.zeroDimPolicy hlen ▸ raisedFrom_raiseError .truncated s⟩

/-! ## What a step may write of the input -/

/-- Only the host placing bytes outside a call changes the bytes of `IN` (R44, R137). -/
theorem stepWith_inBuf {pol : ZeroDimPolicy} {s t : State} (h : stepWith pol s = .next t) :
    t.inBuf = s.inBuf ∨
      s.phase.busy = false ∧ ∃ offset bytes later, s.moves = .placeInput offset bytes :: later := by
  rcases stepWith_cases h with ⟨_, hd⟩ | ⟨later, _, _, hd⟩ | ⟨later, _, _, rfl⟩ |
    ⟨n, v, later, _, rfl⟩ | ⟨n, later, _, rfl⟩ | ⟨k, later, _, rfl⟩ |
    ⟨offset, bytes, later, hm, hb, _, rfl⟩ | ⟨later, _, rfl⟩
  · exact .inl (decoderStep_input hd).inBuf
  · exact .inl (decoderStep_input hd).inBuf
  · exact .inl rfl
  · exact .inl (writeRegister_inBuf n v _)
  · exact .inl rfl
  · exact .inl rfl
  · exact .inr ⟨hb, offset, bytes, later, hm⟩
  · exact .inl rfl

/-- Only a reset, or a write of one of its halves outside a call, changes `IN_LEN` (R31, R40). -/
theorem stepWith_inLen {pol : ZeroDimPolicy} {s t : State} (h : stepWith pol s = .next t) :
    t.inLen = s.inLen ∨ ResetNext s ∨
      s.phase.busy = false ∧
        ∃ n v later, (n = 2 ∨ n = 3) ∧ s.moves = .writeReg n v :: later := by
  rcases stepWith_cases h with ⟨_, hd⟩ | ⟨later, _, _, hd⟩ | ⟨later, _, _, rfl⟩ |
    ⟨n, v, later, hm, rfl⟩ | ⟨n, later, _, rfl⟩ | ⟨k, later, _, rfl⟩ |
    ⟨offset, bytes, later, _, _, _, rfl⟩ | ⟨later, hm, rfl⟩
  · exact .inl (decoderStep_input hd).inLen
  · exact .inl (decoderStep_input hd).inLen
  · exact .inl rfl
  · rcases writeRegister_inLen n v { s with moves := later } with hsame | ⟨hb, hn⟩
    · exact .inl hsame
    · exact .inr (.inr ⟨hb, n, v, later, hn, hm⟩)
  · exact .inl rfl
  · exact .inl rfl
  · exact .inl rfl
  · exact .inr (.inl ⟨later, hm⟩)

/-- Settles O10: `IN` reads as its listed bytes say, and a case for each way a step can change them or
`IN_LEN`. -/
theorem onlyTheHostWritesInput : Obligations.OnlyTheHostWritesInput := by
  unfold Obligations.OnlyTheHostWritesInput
  intro s t h
  exact ⟨(stepWith_inBuf h).imp_left inByte_congr, stepWith_inLen h⟩

/-! ## The channel count and the colorspace -/

/-- A state with other values in `CHANNELS` and `COLORSPACE`, all else the same. -/
def withChannels (c cs : Byte) (s : State) : State := { s with channels := c, colorspace := cs }

theorem fetch_withChannels (c cs : Byte) (s : State) : fetch (withChannels c cs s) = fetch s := by
  have hread : ∀ n addr, memRead (withChannels c cs s) addr n = memRead s addr n := fun n addr =>
    memRead_congr addr n fun _ _ _ => rfl
  have hbyte : ∀ a, inByte (withChannels c cs s) a = inByte s a := fun _ => rfl
  simp only [fetch, hread, hbyte]
  rfl

/-- Every chunk's meaning is the same under other values of `CHANNELS` and `COLORSPACE` (R26). -/
theorem exec_withChannels (c cs : Byte) {i : Instr} {s t : State} (h : exec i s = .next t) :
    exec i (withChannels c cs s) = .next (withChannels c cs t) := by
  cases i with
  | rgb | rgba | index | diff | luma => rw [← Host.Outcome.next.inj h]; rfl
  | run n =>
    rcases exec_cases h with ⟨_, hi, hn, rfl⟩ | ⟨_, hi, _⟩ | ⟨_, hi, hn, rfl⟩ | ⟨_, _, _, hk, _⟩
    · cases hi
      exact if_pos hn
    · cases hi
    · cases hi
      exact if_neg (Int.not_lt.2 hn)
    · exact absurd rfl hk

/-- The chunk step is the same under them too: no fetch and no continuation reads them (R26). -/
theorem chunkStep_withChannels (c cs : Byte) {s t : State} (h : chunkStep s = .next t) :
    chunkStep (withChannels c cs s) = .next (withChannels c cs t) := by
  simp only [chunkStep, fetch_withChannels, show (withChannels c cs s).run = s.run from rfl]
  rcases chunkStep_cases h with ⟨hr, rfl⟩ | ⟨hr, hf, rfl⟩ | ⟨hr, i, hf, hexec⟩
  · exact if_pos hr
  · rw [if_neg (not_not.2 hr), hf]
    rfl
  · rw [if_neg (not_not.2 hr), hf]
    exact exec_withChannels c cs hexec

/-- Settles O47: a step in CHUNK is the chunk step, which keeps the header registers and does not look
at these two. -/
theorem channelCountSteersNoPixel : Obligations.ChannelCountSteersNoPixel := by
  unfold Obligations.ChannelCountSteersNoPixel
  intro s c cs hp hm
  obtain ⟨t, ht⟩ := chunkStep_answers_next s
  have hheader := chunkStep_header ht
  refine ⟨t, (step_chunk hp hm).trans ht, hheader.channels, hheader.colorspace, ?_⟩
  have hstep : step (withChannels c cs s) = chunkStep (withChannels c cs s) := step_chunk hp hm
  exact hstep.trans (chunkStep_withChannels c cs ht)

end Sys2Proof.Machine

/-! The length of a chunk and the bytes it needs (30_encoding.md R62, R74): with fewer payload bytes than
the tag byte asks for, the string is no chunk. -/

namespace Sys2Proof

/-- `Len(b0)` by the tag byte's number, the 2-bit tag as its top quarter (R62). -/
theorem chunkLen_toNat (b0 : Byte) :
    chunkLen b0 =
      if b0 = 0xFE then 4 else if b0 = 0xFF then 5 else if b0.toNat / 64 = 2 then 2 else 1 := by
  rw [chunkLen, bits_7_6]

/-- A chunk with fewer payload bytes than its tag byte asks for is cut (R74). A one-byte chunk has no
payload to be short of. -/
theorem decode_cut (b0 : Byte) (pay : List Byte) (h : pay.length + 1 < chunkLen b0) :
    decode (b0 :: pay) = .error .payloadCut := by
  rw [chunkLen_kind] at h
  cases hk : kindOf b0 <;> simp only [hk] at h <;> simp only [decode, hk]
  case rgb =>
    match pay, h with
    | [], _ | [_], _ | [_, _], _ => rfl
  case rgba =>
    match pay, h with
    | [], _ | [_], _ | [_, _], _ | [_, _, _], _ => rfl
  case luma =>
    match pay, h with
    | [], _ => rfl
  case index | diff | run => omega

/-- Settles O17: a chunk with all its payload bytes decodes, and one with fewer is cut. -/
theorem tagByteAloneFixesTheLength : Obligations.TagByteAloneFixesTheLength := by
  unfold Obligations.TagByteAloneFixesTheLength
  intro b0 pay after len
  have hlen : chunkLen b0 = len := chunkLen_toNat b0
  exact ⟨hlen, fun h => decode_whole b0 pay after (h.trans hlen.symm),
    fun h => decode_cut b0 pay (h.trans_eq hlen.symm)⟩

end Sys2Proof

/-! The header parse (40_header_parser.md R77 to R88): the header it latches, what a zero dimension does,
and that its outcome is a function of `IN_LEN`, the 14 header bytes and the policy. -/

namespace Sys2Proof.Machine

/-! ## The header parse step -/

/-- In HEADER with no move of the host a step under either policy is the header parse (R77). -/
theorem stepWith_header (pol : ZeroDimPolicy) {s : State} (h : AtHeader s) :
    stepWith pol s = .next (headerStep pol s) := by
  rw [stepWith_nil pol h.moves, decoderStep, h.phase]

theorem headerStep_of_error {pol : ZeroDimPolicy} {s : State} {e : FormatError}
    (h : headerError pol s = some e) : headerStep pol s = raiseError e s := by
  rw [headerStep, h]

/-- The state of an accepted header (R85). -/
theorem headerStep_of_none {pol : ZeroDimPolicy} {s : State} (h : headerError pol s = none) :
    headerStep pol s =
      latchHeader (be32 s 0) (be32 s 4) (be32 s 8) (inByte s 12) (inByte s 13) s := by
  rw [headerStep, h]

/-- A header parse that does not end in ERROR found no error. -/
theorem headerError_none_of_phase {pol : ZeroDimPolicy} {s : State}
    (h : (headerStep pol s).phase ≠ .error) : headerError pol s = none := by
  rcases headerStep_cases pol s with ⟨e, _, he⟩ | ⟨hnone, _⟩
  · exact absurd (he ▸ raiseError_phase e s) h
  · exact hnone

/-! ## The latched header -/

theorem be32_eq_zero_iff (s : State) (a : Nat) : be32 s a = 0 ↔ bigEndianAt s a = 0 := by
  rw [← BitVec.toNat_inj, be32_toNat]
  rfl

/-- The product of two 32-bit words is exact in 64 bits (R20, R80). -/
theorem latchHeader_npix_toNat (m w h : Word32) (c cs : Byte) (s : State) :
    (latchHeader m w h c cs s).npix.toNat = w.toNat * h.toNat := by
  have hlt : w.toNat * h.toNat < 2 ^ 32 * 2 ^ 32 := Nat.mul_lt_mul_of_lt_of_lt w.isLt h.isLt
  rw [latchHeader_npix, BitVec.toNat_ofNat]
  exact Nat.mod_eq_of_lt hlt

theorem latchHeader_npix_eq_zero (m w h : Word32) (c cs : Byte) (s : State) :
    (latchHeader m w h c cs s).npix = 0 ↔ w = 0 ∨ h = 0 := by
  rw [← BitVec.toNat_inj, latchHeader_npix_toNat, ← BitVec.toNat_inj, ← BitVec.toNat_inj]
  exact Nat.mul_eq_zero

/-- An image without pixels is DONE at once; any other goes on to its chunks (R85). -/
theorem latchHeader_phase_of_npix (m w h : Word32) (c cs : Byte) (s : State) :
    (latchHeader m w h c cs s).phase =
      if (latchHeader m w h c cs s).npix = 0 then .done else .chunk := by
  have hzero : w.toNat * h.toNat = 0 ↔ (latchHeader m w h c cs s).npix = 0 := by
    rw [← latchHeader_npix_toNat m w h c cs s, ← BitVec.toNat_inj]
    rfl
  rw [latchHeader_phase]
  exact if_congr hzero rfl rfl

/-! ## Later steps of the call -/

/-- During a call every register write is ignored (R31, R135). -/
theorem writeRegister_busy (n : Nat) (v : Word32) {s : State} (hb : s.phase.busy = true) :
    writeRegister n v s = s := by
  rcases writeRegister_cases n v s with ⟨_, _, hidle, _⟩ | ⟨hidle, _⟩ | h
  · simp [hb] at hidle
  · simp [hb] at hidle
  · exact h

/-- A decoder step in CHUNK is a chunk step, so it keeps the header registers (R85). -/
theorem decoderStep_header_of_chunk {pol : ZeroDimPolicy} {s t : State} (hp : s.phase = .chunk)
    (h : decoderStep pol s = .next t) : SameHeader s t := by
  rcases decoderStep_cases h with ⟨hh, _⟩ | ⟨_, hc⟩
  · simp [hp] at hh
  · exact chunkStep_header hc

/-- The host's moves are no part of the header. -/
theorem SameHeader.of_moves {s t : State} {later : List HostMove}
    (h : SameHeader { s with moves := later } t) : SameHeader s t :=
  ⟨h.magic, h.width, h.height, h.channels, h.colorspace, h.hdrValid, h.npix⟩

/-- In CHUNK only a reset writes the header registers or `NPIX` (R85). -/
theorem stepWith_header_of_chunk {pol : ZeroDimPolicy} {s t : State} (hp : s.phase = .chunk)
    (h : stepWith pol s = .next t) (hr : ¬ ResetNext s) : SameHeader s t := by
  have hb : s.phase.busy = true := (busy_iff _).2 (.inr hp)
  rcases stepWith_cases h with ⟨_, hd⟩ | ⟨later, _, _, hd⟩ | ⟨later, _, _, rfl⟩ |
    ⟨n, v, later, _, rfl⟩ | ⟨n, later, _, rfl⟩ | ⟨k, later, _, rfl⟩ |
    ⟨offset, bytes, later, _, hidle, _⟩ | ⟨later, hm, _⟩
  · exact decoderStep_header_of_chunk hp hd
  · exact (decoderStep_header_of_chunk (s := { s with moves := later }) hp hd).of_moves
  · exact (sameHeader_refl { s with moves := later }).of_moves
  · rw [writeRegister_busy n v (s := { s with moves := later }) hb]
    exact (sameHeader_refl { s with moves := later }).of_moves
  · exact ⟨rfl, rfl, rfl, rfl, rfl, rfl, rfl⟩
  · exact ⟨rfl, rfl, rfl, rfl, rfl, rfl, rfl⟩
  · simp [hb] at hidle
  · exact absurd ⟨later, hm⟩ hr

/-- Settles O13: a parse that does not end in ERROR latched the header, and in CHUNK every step but a
reset keeps it. -/
theorem headerParseLatchesTheHeader : Obligations.HeaderParseLatchesTheHeader := by
  unfold Obligations.HeaderParseLatchesTheHeader
  refine ⟨fun pol s t hat h ht => ?_, fun pol s t hp h hr => stepWith_header_of_chunk hp h hr⟩
  rw [stepWith_header pol hat] at h
  obtain rfl := Host.Outcome.next.inj h
  rw [headerStep_of_none (headerError_none_of_phase ht)]
  refine ⟨be32_toNat s 0, be32_toNat s 4, be32_toNat s 8, rfl, rfl, rfl, ?_, rfl, ?_, ?_,
    rfl, rfl, rfl, rfl, rfl, rfl, ⟨rfl, rfl, fun _ => rfl⟩, ⟨rfl, rfl⟩⟩
  · rw [latchHeader_npix_toNat, be32_toNat, be32_toNat]
    rfl
  · exact fun hne => (latchHeader_phase_of_npix _ _ _ _ _ s).trans (if_neg hne)
  · exact fun hz => (latchHeader_phase_of_npix _ _ _ _ _ s).trans (if_pos hz)

/-! ## A zero dimension -/

/-- The zero-dimension check is the only one ACCEPT leaves out (R83). -/
theorem headerError_accept_of_zeroDimension {s : State}
    (h : headerError .reject s = some .zeroDimension) : headerError .accept s = none := by
  simp only [headerError] at h ⊢
  split_ifs at h ⊢
  · cases h
  · cases h
  · cases h
  · cases h
  · rfl

/-- A header with a zero dimension never passes REJECT (R83). -/
theorem headerError_reject_of_zero {s : State} (h : be32 s 4 = 0 ∨ be32 s 8 = 0) :
    ∃ e, headerError .reject s = some e := by
  refine Option.ne_none_iff_exists'.1 fun hnone => ?_
  obtain ⟨_, _, _, _, hpol | ⟨hw, hh⟩⟩ := headerError_none hnone
  · cases hpol
  · exact h.elim hw hh

/-- The machine runs under one of the two policies (R6, R83). -/
theorem step_eq_reject_or_accept (s : State) :
    step s = stepWith .reject s ∨ step s = stepWith .accept s := by
  rw [step_eq]
  cases Config.zeroDimPolicy with
  | reject => exact .inl rfl
  | accept => exact .inr rfl

/-- Settles O15: REJECT's error can only be `ZeroDimension`, and then ACCEPT latches a header without
pixels. -/
theorem zeroDimensionFollowsThePolicy : Obligations.ZeroDimensionFollowsThePolicy := by
  unfold Obligations.ZeroDimensionFollowsThePolicy
  intro s hat honly hzero
  replace hzero : be32 s 4 = 0 ∨ be32 s 8 = 0 := by simpa only [be32_eq_zero_iff] using hzero
  obtain ⟨e, he⟩ := headerError_reject_of_zero hzero
  have hreject : stepWith .reject s = .next (raiseError e s) := by
    rw [stepWith_header _ hat, headerStep_of_error he]
  obtain rfl : e = .zeroDimension := honly e _ hreject (raisedFrom_raiseError e s)
  have haccept := stepWith_header .accept hat
  rw [headerStep_of_none (headerError_accept_of_zeroDimension he)] at haccept
  have hnpix := (latchHeader_npix_eq_zero (be32 s 0) (be32 s 4) (be32 s 8) (inByte s 12)
    (inByte s 13) s).2 hzero
  have hphase := (latchHeader_phase_of_npix _ _ _ _ _ s).trans (if_pos hnpix)
  exact ⟨⟨_, hreject, raisedFrom_raiseError _ s⟩,
    ⟨_, haccept, rfl, hnpix, hphase, rfl, id, rfl⟩, step_eq_reject_or_accept s⟩

/-! ## What the outcome depends on -/

/-- Two states agree on all a header parse reads: `IN_LEN` and `IN[0..13]` (R88). -/
structure SameHeaderBytes (s u : State) : Prop where
  inLen : u.inLen = s.inLen
  bytes : ∀ a, a < Config.headerLen → inByte u a = inByte s a

/-- A word that lies within the header is the same in both. -/
theorem SameHeaderBytes.be32_eq {s u : State} (h : SameHeaderBytes s u) {a : Nat}
    (ha : a + 4 ≤ Config.headerLen) : be32 u a = be32 s a :=
  be32_congr a fun b _ hb => h.bytes b (by omega)

/-- The header's first error is a function of what `SameHeaderBytes` compares (R88). -/
theorem headerError_congr (pol : ZeroDimPolicy) {s u : State} (h : SameHeaderBytes s u) :
    headerError pol u = headerError pol s := by
  have hmagic : be32 u 0 = be32 s 0 := h.be32_eq (by decide)
  have hwidth : be32 u 4 = be32 s 4 := h.be32_eq (by decide)
  have hheight : be32 u 8 = be32 s 8 := h.be32_eq (by decide)
  have hchannels : inByte u 12 = inByte s 12 := h.bytes 12 (by decide)
  have hcolorspace : inByte u 13 = inByte s 13 := h.bytes 13 (by decide)
  simp only [headerError, h.inLen, hmagic, hwidth, hheight, hchannels, hcolorspace]

/-- An accepted header is latched the same way from both (R88). -/
theorem headerStep_congr {pol : ZeroDimPolicy} {s u : State} (h : SameHeaderBytes s u)
    (hs : headerError pol s = none) :
    headerStep pol u =
      latchHeader (be32 s 0) (be32 s 4) (be32 s 8) (inByte s 12) (inByte s 13) u := by
  rw [headerStep_of_none ((headerError_congr pol h).trans hs), h.be32_eq (by decide),
    h.be32_eq (by decide), h.be32_eq (by decide), h.bytes 12 (by decide), h.bytes 13 (by decide)]

/-- Settles O16: both states have the same first error, and without one they latch the same values. -/
theorem headerOutcomeDependsOnHeaderBytesOnly :
    Obligations.HeaderOutcomeDependsOnHeaderBytesOnly := by
  unfold Obligations.HeaderOutcomeDependsOnHeaderBytesOnly
  intro pol s u hs hu hlen hbytes
  have hsame : SameHeaderBytes s u := ⟨hlen, hbytes⟩
  refine ⟨_, _, stepWith_header pol hs, stepWith_header pol hu, ?_⟩
  cases he : headerError pol s with
  | some e =>
    rw [headerStep_of_error he, headerStep_of_error ((headerError_congr pol hsame).trans he)]
    exact .inl ⟨e, raisedFrom_raiseError e s, raisedFrom_raiseError e u⟩
  | none =>
    rw [headerStep_of_none he, headerStep_congr hsame he]
    exact .inr ⟨⟨rfl, rfl, rfl, rfl, rfl, rfl, rfl⟩, rfl, rfl, rfl⟩

end Sys2Proof.Machine

/-! The dispatch of a decoder step (41_chunk_dispatch.md R89 to R91): which step a phase has, and that
`Truncated` is the fetch's error alone. -/

namespace Sys2Proof.Machine

/-! ## Which step a phase has -/

/-- Outside a call there is no call in progress (R22, R29). -/
theorem busy_of_outside {p : Phase} (h : p = .idle ∨ p = .done ∨ p = .error) : p.busy = false := by
  rcases h with rfl | rfl | rfl <;> rfl

/-- Settles O48: the header parse always answers, a chunk step always answers, and a decoder step that
answers is taken during a call. -/
theorem decoderAlwaysStepsDuringACall : Obligations.DecoderAlwaysStepsDuringACall := by
  unfold Obligations.DecoderAlwaysStepsDuringACall
  intro s
  refine ⟨fun hm hp => step_header ⟨hp, hm⟩, fun hm hp => ?_, fun hp pol u h => ?_⟩
  · obtain ⟨t, ht⟩ := chunkStep_answers_next s
    have hstep := step_chunk hp hm
    exact ⟨hstep, t, hstep.trans ht⟩
  · have hbusy := decoderStep_next_busy h
    simp [busy_of_outside hp] at hbusy

/-! ## `Truncated` -/

/-- A chunk overruns, with nothing of it applied, or emits its pixel (R93, R116). -/
theorem exec_overruns_or_emits {i : Instr} {s t : State} (h : exec i s = .next t) :
    t = raiseError .overrun s ∨ ∃ p n, Emitted p n s t := by
  rcases exec_cases h with ⟨n, _, _, rfl⟩ | ⟨k, _, rfl⟩ | ⟨n, _, _, rfl⟩ | ⟨p, n, _, _, rfl⟩
  · exact .inl rfl
  · exact .inr ⟨_, _, emitted_advance _ _ s⟩
  · exact .inr ⟨_, _, emitted_loadRun _ _ _ s⟩
  · exact .inr ⟨_, _, emitted_finishChunk _ _ s⟩

/-- An emitted pixel is counted, and a raised error leaves `COUNT` as it is (R10, R93): no step does
both. -/
theorem Emitted.not_raised {p : Pixel} {n : Nat} {e : FormatError} {s t : State}
    (h : Emitted p n s t) : ¬ RaisedFrom e s t := by
  intro hraised
  have hcount : s.count + 1 = s.count := h.count.symm.trans hraised.count
  simp at hcount

/-- A chunk that was fetched is whole, so its own effect never raises `Truncated` (R91). -/
theorem exec_not_truncated {i : Instr} {s t : State} (h : exec i s = .next t) :
    ¬ RaisedFrom .truncated s t := by
  rcases exec_overruns_or_emits h with rfl | ⟨p, n, hemit⟩
  · intro hraised
    have hcode : FormatError.overrun.code = FormatError.truncated.code := hraised.err
    exact absurd hcode (by decide)
  · exact hemit.not_raised

/-- Settles O45: the fetch answers `Truncated` exactly on a cut chunk, and what it fetches otherwise
does not raise it. -/
theorem truncatedExactlyWhenTheChunkIsCut : Obligations.TruncatedExactlyWhenTheChunkIsCut := by
  unfold Obligations.TruncatedExactlyWhenTheChunkIsCut
  intro s hat
  constructor
  · rintro ⟨t, hstep, hraised⟩
    rcases fetch_cases s with ⟨_, hcut⟩ | ⟨_, i, hfetch, _⟩
    · exact hcut
    · rw [step_fetch hat.phase hat.run hat.moves hfetch] at hstep
      exact absurd hraised (exec_not_truncated hstep)
  · intro hcut
    exact ⟨_, step_cut hat.phase hat.run hat.moves (fetch_cut hcut), raisedFrom_raiseError _ s⟩

end Sys2Proof.Machine

/-! The literal chunks from their bytes (42_literal_chunks.md R102, R103): what the bytes at `POS` decode
to, and the common update with a literal pixel. -/

namespace Sys2Proof.Machine

/-! ## A chunk step from its bytes -/

/-- With no run being continued and no move of the host, a step runs the chunk whose bytes lie whole
below `IN_LEN` (R91, R92). -/
theorem step_of_decode {s : State} {i : Instr} {n : Nat} (h : AtChunk s)
    (hlen : s.pos.toNat + n ≤ s.inLen.toNat)
    (hd : decode (memRead s s.pos.toNat n) = .ok (i, [])) : step s = exec i s :=
  step_fetch h.phase h.run h.moves (fetch_of_decode hlen hd)

/-- A tag byte without its whole payload raises `Truncated` (R91). -/
theorem step_truncated_of_cut {s : State} (h : AtChunk s)
    (hcut : s.inLen.toNat < s.pos.toNat + chunkLen (inByte s s.pos.toNat)) :
    ∃ t, step s = .next t ∧ RaisedFrom .truncated s t :=
  (truncatedExactlyWhenTheChunkIsCut s h).2 (.inr hcut)

/-- The common update of R94 as the statements about chunk steps spell it: the pixel is emitted and
written to its own slot, and no run is loaded. -/
theorem step_finishChunk_effect {s : State} {p : Pixel} {len : Nat} (h : AtChunk s)
    (hstep : step s = .next (finishChunk p len s)) :
    ∃ t k, step s = .next t ∧ SlotOf k p ∧ Emitted p len s t ∧ CacheWritten k p s t ∧ t.run = 0 :=
  ⟨_, pixelHash p, hstep, pixelHash_val p, emitted_finishChunk p len s,
    cacheWritten_finishChunk p len s, (finishChunk_run p len s).trans h.run⟩

/-! ## RGB and RGBA -/

/-- Four bytes that start with the tag 0xFE are an RGB chunk (R60, R102). -/
theorem decode_memRead_rgb {s : State} {a : Nat} (h : inByte s a = 0xFE) :
    decode (memRead s a 4) =
      .ok (.rgb (inByte s (a + 1)) (inByte s (a + 2)) (inByte s (a + 3)), []) := by
  rw [memRead_succ, h]
  rfl

/-- Five bytes that start with the tag 0xFF are an RGBA chunk (R60, R103). -/
theorem decode_memRead_rgba {s : State} {a : Nat} (h : inByte s a = 0xFF) :
    decode (memRead s a 5) =
      .ok (.rgba (inByte s (a + 1)) (inByte s (a + 2)) (inByte s (a + 3)) (inByte s (a + 4)),
        []) := by
  rw [memRead_succ, h]
  rfl

/-- The arm of an RGB chunk: its literal with `PREV`'s alpha, then the common update (R102). -/
theorem exec_rgb (r g b : Byte) (s : State) :
    exec (.rgb r g b) s = .next (finishChunk ⟨r, g, b, s.prev.a⟩ 4 s) := rfl

/-- The arm of an RGBA chunk: its literal, then the common update (R103). -/
theorem exec_rgba (r g b a : Byte) (s : State) :
    exec (.rgba r g b a) s = .next (finishChunk ⟨r, g, b, a⟩ 5 s) := rfl

/-- Settles O38: whole, the bytes decode to RGB and the step is its arm; cut, the step is R91's. -/
theorem rgbChunkStep : Obligations.RgbChunkStep := by
  unfold Obligations.RgbChunkStep
  intro s hat htag
  refine ⟨fun hfits => ?_, fun _ hcut => ?_⟩
  · have hstep := step_of_decode hat hfits (decode_memRead_rgb htag)
    exact step_finishChunk_effect hat (hstep.trans (exec_rgb _ _ _ s))
  · have hlen : chunkLen (inByte s s.pos.toNat) = 4 := by rw [htag]; rfl
    exact step_truncated_of_cut hat (hlen ▸ hcut)

/-- Settles O39: whole, the bytes decode to RGBA and the step is its arm; cut, the step is R91's. -/
theorem rgbaChunkStep : Obligations.RgbaChunkStep := by
  unfold Obligations.RgbaChunkStep
  intro s hat htag
  refine ⟨fun hfits => ?_, fun _ hcut => ?_⟩
  · have hstep := step_of_decode hat hfits (decode_memRead_rgba htag)
    exact step_finishChunk_effect hat (hstep.trans (exec_rgba _ _ _ _ s))
  · have hlen : chunkLen (inByte s s.pos.toNat) = 5 := by rw [htag]; rfl
    exact step_truncated_of_cut hat (hlen ▸ hcut)

end Sys2Proof.Machine

/-! The colour cache (43_index_cache.md R104, R106, R107): the hash, what a chunk writes of the cache, and
INDEX from its byte. -/

namespace Sys2Proof.Machine

/-! ## The hash -/

/-- Settles O34: the model's slot is that sum by its definition. -/
theorem hashIsTheSumModulo64 : Obligations.HashIsTheSumModulo64 := by
  unfold Obligations.HashIsTheSumModulo64
  exact pixelHash_val

/-! ## What a chunk writes of the cache -/

theorem kind_eq_index_iff (i : Instr) : i.kind = .index ↔ ∃ k, i = .index k := by
  cases i <;> simp [Instr.kind]

/-- The arm of an INDEX chunk: the slot's pixel, then the common update without its cache write
(R107). -/
theorem exec_index (k : Fin 64) (s : State) :
    exec (.index k) s = .next (advance s.cache[k] 1 s) := rfl

/-- A chunk of any other kind overruns, or leaves the pixel it emits, now `PREV`, in that pixel's slot
(R106). -/
theorem exec_overruns_or_writes_cache {i : Instr} {s t : State} (h : exec i s = .next t)
    (hk : i.kind ≠ .index) :
    t = raiseError .overrun s ∨ CacheWritten (pixelHash t.prev) t.prev s t := by
  rcases exec_cases h with ⟨n, _, _, rfl⟩ | ⟨k, rfl, _⟩ | ⟨n, _, _, rfl⟩ | ⟨p, len, _, _, rfl⟩
  · exact .inl rfl
  · exact absurd rfl hk
  · exact .inr (cacheWritten_loadRun s.prev 1 n s)
  · exact .inr (cacheWritten_finishChunk p len s)

/-- Settles O32: an overrun counts no pixel, so any other kind wrote its pixel's slot. -/
theorem cacheWriteIsOneSlot : Obligations.CacheWriteIsOneSlot := by
  unfold Obligations.CacheWriteIsOneSlot
  intro i s t h hcount
  refine ⟨fun hindex => ?_, fun hk => ?_⟩
  · obtain ⟨k, rfl⟩ := (kind_eq_index_iff i).1 hindex
    obtain rfl := Host.Outcome.next.inj ((exec_index k s).symm.trans h)
    exact advance_cache _ 1 s
  · rcases exec_overruns_or_writes_cache h hk with rfl | hwritten
    · simp at hcount
    · exact ⟨_, pixelHash_val t.prev, hwritten⟩

/-! ## INDEX from its byte -/

/-- A byte below 64 is an INDEX chunk of the slot it numbers (R61, R64). -/
theorem decode_memRead_index {s : State} {a : Nat} {i : Fin 64} (h : (inByte s a).toNat = i.val) :
    decode (memRead s a 1) = .ok (.index i, []) := by
  have hkind : kindOf (inByte s a) = .index := by
    rw [kindOf_toNat, if_pos (by omega)]
  have hslot : decodeIndex (inByte s a) = .index i := by
    rw [decodeIndex, bits_5_0, h, Nat.mod_eq_of_lt i.isLt, Fin.ofNat_val_eq_self]
  simp only [memRead, decode, hkind, hslot]

/-- Settles O40: the byte decodes to INDEX, and the step is its arm. -/
theorem indexChunkStep : Obligations.IndexChunkStep := by
  unfold Obligations.IndexChunkStep
  intro s i hat hbyte hlen
  have hstep := step_of_decode hat hlen (decode_memRead_index hbyte)
  exact ⟨_, hstep.trans (exec_index i s), emitted_advance _ 1 s, advance_cache _ 1 s,
    (advance_run _ 1 s).trans hat.run⟩

end Sys2Proof.Machine

/-! The delta chunks (44_delta_chunks.md R109, R111): the delta adder's lanes, and LUMA from its bytes. -/

namespace Sys2Proof.Machine

/-! ## The delta adder -/

/-- A lane moves its channel by the delta, modulo 256 (R8). -/
theorem movedBy_addChannel (d : Int) (u : Byte) : MovedBy d u (addChannel u d) :=
  addChannel_toNat u d

/-- Settles O36: each lane is `addChannel` on its own channel and delta, and alpha has no lane. -/
theorem deltaAdderLanesWrap : Obligations.DeltaAdderLanesWrap := by
  unfold Obligations.DeltaAdderLanesWrap
  intro q dr dg db
  exact ⟨movedBy_addChannel dr q.r, movedBy_addChannel dg q.g, movedBy_addChannel db q.b, rfl⟩

/-! ## LUMA -/

/-- A byte whose top two bits are 2 is the tag byte of a LUMA chunk (R63). -/
theorem kindOf_luma {b0 : Byte} (h : b0.toNat / 64 = 2) : kindOf b0 = .luma := by
  rw [kindOf_toNat, if_neg (by omega), if_neg (by omega), if_pos (by omega)]

/-- Two bytes that start with the tag 2 are a LUMA chunk, its fields as numbers (R60, R61). -/
theorem decode_memRead_luma {s : State} {a : Nat} (h : (inByte s a).toNat / 64 = 2) :
    decode (memRead s a 2) =
      .ok (.luma (((inByte s a).toNat % 64 : Nat) - 32) (((inByte s (a + 1)).toNat / 16 : Nat) - 8)
        (((inByte s (a + 1)).toNat % 16 : Nat) - 8), []) := by
  simp only [memRead, decode, kindOf_luma h, decodeLuma, bits_5_0, bits_7_4, bits_3_0]

/-- The arm of a LUMA chunk: the delta adder around green's delta, then the common update (R111). -/
theorem exec_luma (dg drdg dbdg : Int) (s : State) :
    exec (.luma dg drdg dbdg) s =
      .next (finishChunk (deltaAdd s.prev (dg + drdg) dg (dg + dbdg)) 2 s) := rfl

/-- Settles O42: whole, the bytes decode to LUMA and the step is its arm, whose pixel is the delta
adder's; cut, the step is R91's. -/
theorem lumaChunkStep : Obligations.LumaChunkStep := by
  unfold Obligations.LumaChunkStep
  intro s hat _ htag b0 b1 dg
  refine ⟨fun hfits => ?_, fun hcut => ?_⟩
  · have hstep := step_of_decode hat hfits (decode_memRead_luma htag)
    obtain ⟨t, k, heffect⟩ := step_finishChunk_effect hat (hstep.trans (exec_luma _ _ _ s))
    obtain ⟨hnext, hslot, hemit, hcache, hrun⟩ := heffect
    obtain ⟨hr, hg, hb, ha⟩ :=
      deltaAdderLanesWrap s.prev (dg + ((b1 / 16 : Nat) - 8)) dg (dg + ((b1 % 16 : Nat) - 8))
    exact ⟨t, _, k, hnext, hr, hg, hb, ha, hslot, hemit, hcache, hrun⟩
  · have hlen : chunkLen (inByte s s.pos.toNat) = 2 := by rw [chunkLen_kind, kindOf_luma htag]
    exact step_truncated_of_cut hat (hlen ▸ hcut)

end Sys2Proof.Machine

/-! The run-length counter (45_run_chunk.md R113 to R117): RUN from its byte, and the run
continuation. -/

namespace Sys2Proof.Machine

/-! ## RUN -/

/-- A byte from 0xC0 to 0xFD is the tag byte of a RUN chunk (R64). -/
theorem kindOf_run {b0 : Byte} (hlo : 0xC0 ≤ b0.toNat) (hhi : b0.toNat < 0xFE) :
    kindOf b0 = .run := by
  rw [kindOf_toNat, if_neg (by omega), if_neg (by omega), if_neg (by omega), if_pos hhi]

/-- The byte 0xC0 + n - 1 is a RUN chunk of `n` pixels (R60, R61). -/
theorem decode_memRead_run {s : State} {a n : Nat} (h1 : 1 ≤ n) (h62 : n ≤ 62)
    (h : (inByte s a).toNat = 0xC0 + (n - 1)) :
    decode (memRead s a 1) = .ok (.run n, []) := by
  have hkind : kindOf (inByte s a) = .run := kindOf_run (by omega) (by omega)
  have hlength : decodeRun (inByte s a) = .run n := by
    rw [decodeRun, bits_5_0, h, show (0xC0 + (n - 1)) % 64 + 1 = n by omega]
  simp only [memRead, decode, hkind, hlength]

/-- The arm of a RUN chunk that fits the remaining pixels: the counter is loaded, then the common
update with `PREV` (R114). -/
theorem exec_run_of_fits {n : Nat} {s : State} (h : s.count.toNat + n ≤ s.npix.toNat) :
    exec (.run n) s = .next (finishChunk s.prev 1 (loadRun n s)) :=
  if_neg (by simp only [remaining]; omega)

/-- The arm of a RUN chunk longer than the remaining pixels: the whole chunk is refused (R116). -/
theorem exec_run_of_exceeds {n : Nat} {s : State} (h : s.npix.toNat < s.count.toNat + n) :
    exec (.run n) s = .next (raiseError .overrun s) :=
  if_pos (by simp only [remaining]; omega)

/-- The 6-bit counter holds every length a RUN chunk loads (R113). -/
theorem loadRun_run_toNat {n : Nat} (h62 : n ≤ 62) (s : State) :
    (loadRun n s).run.toNat = n - 1 := by
  rw [loadRun_run, BitVec.toNat_ofNat, Nat.mod_eq_of_lt (by omega)]

/-- Settles O43: the byte decodes to RUN, and the step is whichever arm the remaining pixels allow. -/
theorem runChunkStep : Obligations.RunChunkStep := by
  unfold Obligations.RunChunkStep
  intro s n hat hlen h1 h62 hbyte
  have hstep := step_of_decode hat hlen (decode_memRead_run h1 h62 hbyte)
  refine ⟨fun hfits => ?_, fun hexceeds => ?_⟩
  · have hrun : (finishChunk s.prev 1 (loadRun n s)).run.toNat = n - 1 := by
      rw [finishChunk_run, loadRun_run_toNat h62]
    exact ⟨_, pixelHash s.prev, hstep.trans (exec_run_of_fits hfits), hrun, pixelHash_val s.prev,
      emitted_loadRun s.prev 1 n s, cacheWritten_loadRun s.prev 1 n s⟩
  · exact ⟨_, hstep.trans (exec_run_of_exceeds hexceeds), raisedFrom_raiseError .overrun s⟩

/-! ## The run continuation -/

/-- While `RUN` is not 0, a step is the run continuation, whatever stands at `POS` (R90). -/
theorem step_runContinue {s : State} (hp : s.phase = .chunk) (hr : s.run ≠ 0) (hm : s.moves = []) :
    step s = .next (runContinue s) := by
  rw [step_chunk hp hm, chunkStep, if_pos hr]

/-- The counter does not wrap: it is counted down only when it is not 0 (R113). -/
theorem runContinue_run_toNat {s : State} (hr : s.run ≠ 0) :
    (runContinue s).run.toNat = s.run.toNat - 1 := by
  rw [runContinue_run]
  bv_omega

/-- With one pixel remaining, a run being continued has one pixel to go: `RUN` never counts more than
the remaining pixels (R39). -/
theorem State.Inv.run_eq_one {s : State} (h : s.Inv) (hp : s.phase = .chunk) (hr : s.run ≠ 0)
    (hlast : s.count + 1 = s.npix) : s.run = 1 := by
  have hfits := h.runFits hp
  have hremain := h.pixelsRemain hp
  bv_omega

/-- Settles O44: the step is the run continuation, and on the last pixel `RUN` was 1. -/
theorem runContinuationStep : Obligations.RunContinuationStep := by
  unfold Obligations.RunContinuationStep
  intro s hp hr hm
  refine ⟨_, step_runContinue hp hr hm, runContinue_run_toNat hr, emitted_runContinue s,
    runContinue_cache s, fun hinv hlast => ⟨?_, ?_⟩⟩
  · rw [runContinue_run, hinv.run_eq_one hp hr hlast]
    rfl
  · rw [runContinue_phase, if_pos hlast]

end Sys2Proof.Machine

/-! Errors and how a call leaves them (60_exceptions.md R125, R130): only a RUN overruns, and only a START
or a reset leaves ERROR. -/

namespace Sys2Proof.Machine

/-! ## Overrun -/

/-- A chunk that enters ERROR is a RUN longer than the remaining pixels: every other effect of a chunk
emits its pixel (R125). -/
theorem exec_enters_error {i : Instr} {s t : State} (h : exec i s = .next t)
    (hs : s.phase ≠ .error) (ht : t.phase = .error) :
    ∃ n, i = .run n ∧ s.npix.toNat < s.count.toNat + n ∧ t = raiseError .overrun s := by
  rcases exec_cases h with ⟨n, hi, hn, rfl⟩ | ⟨k, _, rfl⟩ | ⟨n, _, _, rfl⟩ | ⟨p, len, _, _, rfl⟩
  · simp only [remaining] at hn
    exact ⟨n, hi, by omega, rfl⟩
  · exact absurd ht ((emitted_advance _ 1 s).phase_ne_error hs)
  · exact absurd ht ((emitted_loadRun _ 1 n s).phase_ne_error hs)
  · exact absurd ht ((emitted_finishChunk p len s).phase_ne_error hs)

/-- Settles O31: a RUN's arm refuses a run that is too long, and every other chunk and a run
continuation emit a pixel, which never enters ERROR. -/
theorem onlyRunOverruns : Obligations.OnlyRunOverruns := by
  unfold Obligations.OnlyRunOverruns
  refine ⟨fun n s hexceeds => ?_, fun i s t h hs ht => ?_, fun s hp hr hm => ?_⟩
  · exact ⟨_, exec_run_of_exceeds hexceeds, raisedFrom_raiseError .overrun s⟩
  · obtain ⟨n, hi, hexceeds, rfl⟩ := exec_enters_error h hs ht
    exact ⟨n, hi, hexceeds, raisedFrom_raiseError .overrun s⟩
  · have hemit := emitted_runContinue s
    exact ⟨_, step_runContinue hp hr hm, hemit.phase_ne_error (by simp [hp]), hemit.err⟩

/-! ## Leaving ERROR -/

/-- Only START changes the phase (R29, R31, R37). -/
theorem writeRegister_phase (n : Nat) (v : Word32) (s : State) :
    (writeRegister n v s).phase = s.phase ∨
      n = 0 ∧ v.getLsbD 0 = true ∧ s.phase.busy = false ∧ writeRegister n v s = startCall s := by
  rcases writeRegister_cases n v s with hstart | ⟨_, _, len, h⟩ | h
  · exact .inr hstart
  · exact .inl (by rw [h])
  · exact .inl (by rw [h])

/-- A step that leaves ERROR is a START or a reset: the decoder has no step there, and every other move
of the host keeps the phase (R130). -/
theorem stepWith_leaves_error {pol : ZeroDimPolicy} {s t : State} (h : stepWith pol s = .next t)
    (hs : s.phase = .error) (ht : t.phase ≠ .error) :
    (StartNext s ∧ t = startCall { s with moves := s.moves.tail }) ∨
      (ResetNext s ∧ t = hardwareReset { s with moves := s.moves.tail }) := by
  have hidle : s.phase.busy = false := busy_of_outside (.inr (.inr hs))
  rcases stepWith_cases h with ⟨_, hd⟩ | ⟨later, _, hbusy, _⟩ | ⟨later, _, _, rfl⟩ |
    ⟨n, v, later, hm, rfl⟩ | ⟨n, later, _, rfl⟩ | ⟨k, later, _, rfl⟩ |
    ⟨offset, bytes, later, _, _, _, rfl⟩ | ⟨later, hm, rfl⟩
  · simp [decoderStep_next_busy hd] at hidle
  · simp [hbusy] at hidle
  · exact absurd hs ht
  · rcases writeRegister_phase n v { s with moves := later } with hsame | ⟨rfl, hv, _, hstart⟩
    · exact absurd (hsame.trans hs) ht
    · exact .inl ⟨⟨hidle, v, later, hm, hv⟩, by rw [hstart, hm, List.tail_cons]⟩
  · exact absurd hs ht
  · exact absurd hs ht
  · exact absurd hs ht
  · exact .inr ⟨⟨later, hm⟩, by rw [hm, List.tail_cons]⟩

/-- Settles O52: ERROR is a phase without a decoder step, and START and reset each clear `ERR`. -/
theorem errorIsLeftByStartOrResetOnly : Obligations.ErrorIsLeftByStartOrResetOnly := by
  unfold Obligations.ErrorIsLeftByStartOrResetOnly
  intro s hs
  obtain ⟨_, _, hstops⟩ := decoderAlwaysStepsDuringACall s
  refine ⟨hstops (.inr (.inr hs)), fun t h ht => ?_⟩
  rcases stepWith_leaves_error h hs ht with ⟨hstart, rfl⟩ | ⟨hreset, rfl⟩
  · exact .inl ⟨hstart, startCall_phase _, startCall_err _⟩
  · exact .inr ⟨hreset, hardwareReset_phase _, hardwareReset_err _⟩

end Sys2Proof.Machine

/-! Reset and START (70_reset_and_hazards.md R132 to R135): the values a hardware reset and an accepted
START give the registers, and the writes of `CTRL` that start nothing. -/

namespace Sys2Proof.Machine

/-! ## Hardware reset -/

/-- Reset and START clear every slot of the cache (R40, R134). -/
theorem clearedCache_get (i : Fin 64) : (Vector.replicate 64 Pixel.clear)[i] = ⟨0, 0, 0, 0⟩ := by
  rw [Fin.getElem_fin, Vector.getElem_replicate]

theorem resetValues_hardwareReset (s : State) : ResetValues (hardwareReset s) where
  phase := hardwareReset_phase s
  err := hardwareReset_err s
  prev := hardwareReset_prev s
  cache := clearedCache_get
  run := hardwareReset_run s
  pos := hardwareReset_pos s
  npix := hardwareReset_npix s
  count := hardwareReset_count s
  magic := hardwareReset_magic s
  width := hardwareReset_width s
  height := hardwareReset_height s
  channels := hardwareReset_channels s
  colorspace := hardwareReset_colorspace s
  hdrValid := hardwareReset_hdrValid s
  inLen := hardwareReset_inLen s
  out := hardwareReset_out s

/-- A reset of the reset state changes nothing: what holds after every reset holds there too. -/
theorem hardwareReset_reset : hardwareReset State.reset = State.reset := rfl

theorem resetValues_reset : ResetValues State.reset :=
  hardwareReset_reset ▸ resetValues_hardwareReset State.reset

theorem step_reset {s : State} {later : List HostMove} (hm : s.moves = .reset :: later) :
    step s = .next (hardwareReset { s with moves := later }) :=
  stepWith_cons _ hm

/-- A call has no result before DONE or ERROR (R128). -/
theorem callResult_idle {s : State} (h : s.phase = .idle) : callResult s = none := by
  simp only [callResult, h]

/-- Settles O1: the reset state is itself the outcome of a reset, and IDLE has neither a call result nor
a decoder step. -/
theorem hardwareResetPutsEveryRegister : Obligations.HardwareResetPutsEveryRegister := by
  unfold Obligations.HardwareResetPutsEveryRegister
  refine ⟨resetValues_reset, fun s later hm => ?_⟩
  have hreset := resetValues_hardwareReset { s with moves := later }
  obtain ⟨_, _, hstops⟩ := decoderAlwaysStepsDuringACall (hardwareReset { s with moves := later })
  exact ⟨_, step_reset hm, hreset, callResult_idle hreset.phase, inByte_hardwareReset _,
    hardwareReset_inBuf _, hardwareReset_moves _, hardwareReset_replies _,
    hstops (.inl hreset.phase)⟩

/-! ## Writes of `CTRL` -/

/-- Bit 0 set outside a call is an accepted START (R29, R134). -/
theorem writeRegister_start {v : Word32} {s : State} (hv : v.getLsbD 0 = true)
    (hb : s.phase.busy = false) : writeRegister 0 v s = startCall s :=
  if_pos ⟨hv, hb⟩

/-- Any other write of `CTRL` is ignored (R29, R135). -/
theorem writeRegister_ctrl_ignored {v : Word32} {s : State}
    (h : s.phase.busy = true ∨ v.getLsbD 0 = false) : writeRegister 0 v s = s := by
  refine if_neg fun ⟨hv, hb⟩ => ?_
  rcases h with hbusy | hclear
  · exact absurd (hbusy.symm.trans hb) (by decide)
  · exact absurd (hv.symm.trans hclear) (by decide)

/-- Settles O2: outside a call the write is an accepted START, field by field. -/
theorem startInitialisesTheCall : Obligations.StartInitialisesTheCall := by
  unfold Obligations.StartInitialisesTheCall
  intro s v later hp hv hm
  have hstep : step s = .next (startCall { s with moves := later }) :=
    (step_writeReg hm).trans (congrArg _ (writeRegister_start hv (busy_of_outside hp)))
  have hinput : SameInput s (startCall { s with moves := later }) :=
    sameInput_of_eq (startCall_inLen _) (startCall_inBuf _)
  exact ⟨_, hstep, startCall_prev _, clearedCache_get, startCall_run _, startCall_pos _,
    startCall_count _, startCall_npix _, startCall_magic _, startCall_width _, startCall_height _,
    startCall_channels _, startCall_colorspace _, startCall_hdrValid _, startCall_err _,
    startCall_out _, startCall_phase _, hinput, startCall_moves _, startCall_replies _⟩

/-- Settles O3: such a write starts nothing, and `CTRL` reads 0 like any register read. -/
theorem ctrlWriteOtherwiseIgnored : Obligations.CtrlWriteOtherwiseIgnored := by
  unfold Obligations.CtrlWriteOtherwiseIgnored
  intro s v later
  refine ⟨fun hm h => ?_, step_readReg⟩
  have hignored : s.phase.busy = true ∨ v.getLsbD 0 = false := by
    rcases h with hp | hp | hclear
    · exact .inl ((busy_iff _).2 (.inl hp))
    · exact .inl ((busy_iff _).2 (.inr hp))
    · exact .inr hclear
  exact (step_writeReg hm).trans (congrArg _ (writeRegister_ctrl_ignored hignored))

end Sys2Proof.Machine

/-! Encoding and decoding agree (30_encoding.md R60 to R75): one equation of the decoder for each
kind of chunk, the two round trips, and what the assembler spells. -/

namespace Sys2Proof

/-! ## The tag bytes of each kind -/

theorem kindOf_eq_index_iff (b0 : Byte) : kindOf b0 = .index ↔ b0.toNat < 0x40 := by
  rw [kindOf_toNat]
  split_ifs <;> simp <;> omega

theorem kindOf_eq_diff_iff (b0 : Byte) : kindOf b0 = .diff ↔ 0x40 ≤ b0.toNat ∧ b0.toNat < 0x80 := by
  rw [kindOf_toNat]
  split_ifs <;> simp <;> omega

theorem kindOf_eq_luma_iff (b0 : Byte) : kindOf b0 = .luma ↔ 0x80 ≤ b0.toNat ∧ b0.toNat < 0xC0 := by
  rw [kindOf_toNat]
  split_ifs <;> simp <;> omega

theorem kindOf_eq_run_iff (b0 : Byte) : kindOf b0 = .run ↔ 0xC0 ≤ b0.toNat ∧ b0.toNat < 0xFE := by
  rw [kindOf_toNat]
  split_ifs <;> simp <;> omega

theorem kindOf_eq_rgb_iff (b0 : Byte) : kindOf b0 = .rgb ↔ b0.toNat = 0xFE := by
  rw [kindOf_toNat]
  split_ifs <;> simp <;> omega

theorem kindOf_eq_rgba_iff (b0 : Byte) : kindOf b0 = .rgba ↔ b0.toNat = 0xFF := by
  have := byte_lt b0
  rw [kindOf_toNat]
  split_ifs <;> simp <;> omega

/-! ## What the decoder answers for each kind -/

section
variable {b0 : Byte} (after : List Byte)

theorem decode_of_rgb (h : kindOf b0 = .rgb) (r g b : Byte) :
    decode (b0 :: r :: g :: b :: after) = .ok (.rgb r g b, after) := by
  simp only [decode, h]

theorem decode_of_rgba (h : kindOf b0 = .rgba) (r g b a : Byte) :
    decode (b0 :: r :: g :: b :: a :: after) = .ok (.rgba r g b a, after) := by
  simp only [decode, h]

theorem decode_of_index (h : kindOf b0 = .index) :
    decode (b0 :: after) = .ok (decodeIndex b0, after) := by
  simp only [decode, h]

theorem decode_of_diff (h : kindOf b0 = .diff) :
    decode (b0 :: after) = .ok (decodeDiff b0, after) := by
  simp only [decode, h]

theorem decode_of_luma (h : kindOf b0 = .luma) (b1 : Byte) :
    decode (b0 :: b1 :: after) = .ok (decodeLuma b0 b1, after) := by
  simp only [decode, h]

theorem decode_of_run (h : kindOf b0 = .run) :
    decode (b0 :: after) = .ok (decodeRun b0, after) := by
  simp only [decode, h]

/-- A byte below 64 numbers its slot (R61). -/
theorem decodeIndex_of_toNat {i : Fin 64} (h : b0.toNat = i.val) : decodeIndex b0 = .index i := by
  rw [decodeIndex, bits_5_0, h, Nat.mod_eq_of_lt i.isLt, Fin.ofNat_val_eq_self]

end

/-- Settles O18: the tag byte's range fixes its kind, and the decoder's fields are numbers. -/
theorem everyTagByteDecodes : Obligations.EveryTagByteDecodes := by
  unfold Obligations.EveryTagByteDecodes
  intro b0 b1 b2 b3 b4 after
  refine ⟨fun hhi => ?_, fun hlo hhi => ?_, fun hlo hhi => ?_, fun hlo hhi => ?_, fun h => ?_,
    fun h => ?_⟩
  · obtain ⟨i, hi⟩ : ∃ i : Fin 64, i.val = b0.toNat := ⟨⟨b0.toNat, by omega⟩, rfl⟩
    refine ⟨i, hi, ?_⟩
    rw [decode_of_index after ((kindOf_eq_index_iff b0).2 (by omega)),
      decodeIndex_of_toNat hi.symm]
  · rw [decode_of_diff after ((kindOf_eq_diff_iff b0).2 (by omega)), decodeDiff, bits_5_4, bits_3_2,
      bits_1_0]
  · rw [decode_of_luma after ((kindOf_eq_luma_iff b0).2 (by omega)), decodeLuma, bits_5_0, bits_7_4,
      bits_3_0]
  · rw [decode_of_run after ((kindOf_eq_run_iff b0).2 (by omega)), decodeRun, bits_5_0,
      show b0.toNat % 64 = b0.toNat - 0xC0 by omega]
  · exact decode_of_rgb after ((kindOf_eq_rgb_iff b0).2 h) b1 b2 b3
  · exact decode_of_rgba after ((kindOf_eq_rgba_iff b0).2 h) b1 b2 b3 b4

/-- Settles O19: each word decodes by evaluation. -/
theorem sampleChunksDecode : Obligations.SampleChunksDecode := by
  unfold Obligations.SampleChunksDecode
  exact ⟨rfl, rfl, rfl, rfl, rfl, rfl⟩

/-! ## Encoding and decoding are inverse -/

/-- A number that fits a byte is the byte's value (R70). -/
theorem toNat_ofInt_byte {v : Int} (hlo : 0 ≤ v) (hhi : v < 256) :
    ((BitVec.ofInt 8 v).toNat : Int) = v := by
  rw [BitVec.toNat_ofInt]
  omega

theorem ofInt_toNat_byte (b : Byte) : BitVec.ofInt 8 (b.toNat : Int) = b := by
  rw [BitVec.ofInt_natCast, BitVec.ofNat_toNat, BitVec.setWidth_eq]

/-- A byte is the encoding of a number when that number is its value (R70). -/
theorem ofInt_eq_byte {v : Int} {b : Byte} (h : v = b.toNat) : BitVec.ofInt 8 v = b :=
  h ▸ ofInt_toNat_byte b

/-- The fields of an encoded INDEX are its operand (R61, R70). -/
theorem decodeIndex_encode (i : Fin 64) : decodeIndex (BitVec.ofNat 8 i.val) = .index i := by
  refine decodeIndex_of_toNat ?_
  rw [BitVec.toNat_ofNat]
  omega

/-- The fields of an encoded DIFF are its operands (R61, R70). -/
theorem decodeDiff_encode {dr dg db : Int} (h : (Instr.diff dr dg db).wellFormed = true) :
    decodeDiff (BitVec.ofInt 8 (0x40 + (dr + 2) * 16 + (dg + 2) * 4 + (db + 2))) =
      .diff dr dg db := by
  simp only [Instr.wellFormed, Bool.and_eq_true, inRange_iff] at h
  have hbyte := toNat_ofInt_byte (v := 0x40 + (dr + 2) * 16 + (dg + 2) * 4 + (db + 2)) (by omega)
    (by omega)
  simp only [decodeDiff, bits_5_4, bits_3_2, bits_1_0, Instr.diff.injEq]
  omega

/-- The fields of an encoded LUMA are its operands (R61, R70). -/
theorem decodeLuma_encode {dg drdg dbdg : Int} (h : (Instr.luma dg drdg dbdg).wellFormed = true) :
    decodeLuma (BitVec.ofInt 8 (0x80 + (dg + 32))) (BitVec.ofInt 8 ((drdg + 8) * 16 + (dbdg + 8))) =
      .luma dg drdg dbdg := by
  simp only [Instr.wellFormed, Bool.and_eq_true, inRange_iff] at h
  have htag := toNat_ofInt_byte (v := 0x80 + (dg + 32)) (by omega) (by omega)
  have hpay := toNat_ofInt_byte (v := (drdg + 8) * 16 + (dbdg + 8)) (by omega) (by omega)
  simp only [decodeLuma, bits_5_0, bits_7_4, bits_3_0, Instr.luma.injEq]
  omega

/-- The field of an encoded RUN is its operand (R61, R70). -/
theorem decodeRun_encode {n : Nat} (h : (Instr.run n).wellFormed = true) :
    decodeRun (BitVec.ofInt 8 (0xC0 + ((n : Int) - 1))) = .run n := by
  simp only [Instr.wellFormed, Bool.and_eq_true, decide_eq_true_eq, Config.runMax] at h
  have hbyte := toNat_ofInt_byte (v := 0xC0 + ((n : Int) - 1)) (by omega) (by omega)
  simp only [decodeRun, bits_5_0, Instr.run.injEq]
  omega

/-- Decoding an encoded chunk gives it back and leaves what follows (R75). -/
theorem decode_encode {i : Instr} (after : List Byte) (h : i.wellFormed = true) :
    decode (encode i ++ after) = .ok (i, after) := by
  cases i with
  | rgb r g b => exact decode_of_rgb after rfl r g b
  | rgba r g b a => exact decode_of_rgba after rfl r g b a
  | index i =>
    obtain ⟨b0, pay, he, hk, _⟩ := Laws.EncodeLen.index i h
    cases he
    exact (decode_of_index after hk).trans (by rw [decodeIndex_encode])
  | diff dr dg db =>
    obtain ⟨b0, pay, he, hk, _⟩ := Laws.EncodeLen.diff dr dg db h
    cases he
    exact (decode_of_diff after hk).trans (by rw [decodeDiff_encode h])
  | luma dg drdg dbdg =>
    obtain ⟨b0, pay, he, hk, _⟩ := Laws.EncodeLen.luma dg drdg dbdg h
    cases he
    exact (decode_of_luma after hk _).trans (by rw [decodeLuma_encode h])
  | run n =>
    obtain ⟨b0, pay, he, hk, _⟩ := Laws.EncodeLen.run n h
    cases he
    exact (decode_of_run after hk).trans (by rw [decodeRun_encode h])

/-- What decodes is in range, and is encoded as the bytes it was decoded from (R75). -/
theorem encode_decode {bytes after : List Byte} {i : Instr} (h : decode bytes = .ok (i, after)) :
    i.wellFormed = true ∧ encode i ++ after = bytes := by
  obtain ⟨b0, ⟨r, g, b, hk, rfl, rfl⟩ | ⟨r, g, b, a, hk, rfl, rfl⟩ | ⟨hk, rfl, rfl⟩ |
    ⟨hk, rfl, rfl⟩ | ⟨b1, hk, rfl, rfl⟩ | ⟨hk, rfl, rfl⟩⟩ := decode_cases h
  · obtain rfl : b0 = 0xFE := (byte_eq_iff _ _).2 ((kindOf_eq_rgb_iff b0).1 hk)
    exact ⟨rfl, rfl⟩
  · obtain rfl : b0 = 0xFF := (byte_eq_iff _ _).2 ((kindOf_eq_rgba_iff b0).1 hk)
    exact ⟨rfl, rfl⟩
  · have hrange := (kindOf_eq_index_iff b0).1 hk
    refine ⟨rfl, congrArg (· :: after) ?_⟩
    simp only [bits_5_0, Fin.val_ofNat, Nat.mod_eq_of_lt hrange, BitVec.ofNat_toNat,
      BitVec.setWidth_eq]
  · have hrange := (kindOf_eq_diff_iff b0).1 hk
    refine ⟨?_, congrArg (· :: after) (ofInt_eq_byte ?_)⟩
    · simp only [decodeDiff, Instr.wellFormed, Bool.and_eq_true, inRange_iff, bits_5_4, bits_3_2,
        bits_1_0]
      omega
    · rw [bits_5_4, bits_3_2, bits_1_0]
      omega
  · have hrange := (kindOf_eq_luma_iff b0).1 hk
    refine ⟨?_, congrArg₂ (fun x y => x :: y :: after) (ofInt_eq_byte ?_) (ofInt_eq_byte ?_)⟩
    · have := byte_lt b1
      simp only [decodeLuma, Instr.wellFormed, Bool.and_eq_true, inRange_iff, bits_5_0, bits_7_4,
        bits_3_0]
      omega
    · rw [bits_5_0]
      omega
    · rw [bits_7_4, bits_3_0]
      omega
  · have hrange := (kindOf_eq_run_iff b0).1 hk
    refine ⟨?_, congrArg (· :: after) (ofInt_eq_byte ?_)⟩
    · simp only [decodeRun, Instr.wellFormed, Bool.and_eq_true, decide_eq_true_eq, Config.runMax,
        bits_5_0]
      omega
    · rw [bits_5_0]
      omega

/-- Settles O21, by a case for each kind the bytes can decode to. -/
theorem encodeOfDecode : Obligations.EncodeOfDecode := by
  unfold Obligations.EncodeOfDecode
  exact fun _ _ _ => encode_decode

end Sys2Proof

namespace Sys2Proof.Machine

/-! ## What the assembler spells -/

theorem ranged_of_mem {lo hi v : Int} (h : lo ≤ v ∧ v ≤ hi) : ranged lo hi v = some v :=
  if_pos ((inRange_iff lo hi v).2 h)

theorem ranged_of_not_mem {lo hi v : Int} (h : ¬ (lo ≤ v ∧ v ≤ hi)) : ranged lo hi v = none :=
  if_neg (mt (inRange_iff lo hi v).1 h)

@[simp] theorem ranged_isSome (lo hi v : Int) :
    (ranged lo hi v).isSome = true ↔ lo ≤ v ∧ v ≤ hi := by
  by_cases h : lo ≤ v ∧ v ≤ hi
  · simp [ranged_of_mem h, h]
  · simp [ranged_of_not_mem h, h]

@[simp] theorem byteOperand_isSome (v : Int) :
    (byteOperand v).isSome = true ↔ 0 ≤ v ∧ v ≤ 255 := by
  rw [byteOperand, Option.isSome_map, ranged_isSome]

/-- A byte's value as an operand is that byte (R69). -/
theorem byteOperand_toNat (b : Byte) : byteOperand (b.toNat : Int) = some b := by
  have := byte_lt b
  rw [byteOperand, ranged_of_mem (by omega), Option.map_some, ofInt_toNat_byte]

/-- Operands taken one after the other are all taken exactly when each is. -/
theorem isSome_bind_iff {α β : Type} {x : Option α} {f : α → Option β} {P : Prop}
    (h : ∀ a, (f a).isSome = true ↔ P) :
    (x.bind f).isSome = true ↔ x.isSome = true ∧ P := by
  cases x with
  | none => simp
  | some a => simpa using h a

/-- The last operand taken decides whether there is a chunk. -/
theorem isSome_bind_some_iff {α β : Type} {x : Option α} {f : α → β} :
    (x.bind fun a => some (f a)).isSome = true ↔ x.isSome = true := by
  cases x <;> simp

/-- The operands of a chunk's line give the chunk back (R69). -/
theorem assembleLine_lineOf {i : Instr} (h : i.wellFormed = true) :
    assembleLine (lineOf i) = some (encode i) := by
  cases i with
  | rgb r g b => simp [lineOf, assembleLine, chunkOf, byteOperand_toNat]
  | rgba r g b a => simp [lineOf, assembleLine, chunkOf, byteOperand_toNat]
  | index i =>
    have hrange : ranged 0 63 (i.val : Int) = some (i.val : Int) := ranged_of_mem (by omega)
    simp [lineOf, assembleLine, chunkOf, hrange]
  | diff dr dg db => simp [lineOf, assembleLine, chunkOf, h]
  | luma dg drdg dbdg => simp [lineOf, assembleLine, chunkOf, h]
  | run n =>
    simp only [Instr.wellFormed, Bool.and_eq_true, decide_eq_true_eq, Config.runMax] at h
    have hrange : ranged 1 62 (n : Int) = some (n : Int) := ranged_of_mem (by omega)
    simp [lineOf, assembleLine, chunkOf, hrange]

/-- Settles O20, by the round trip and the operands of the chunk's line. -/
theorem decodeOfEncode : Obligations.DecodeOfEncode := by
  unfold Obligations.DecodeOfEncode
  exact fun _ after h => ⟨decode_encode after h, assembleLine_lineOf h⟩

/-- A filtered chunk is taken exactly when its operands are in range (R69). -/
theorem filter_wellFormed_isSome (i : Instr) :
    ((some i).filter Instr.wellFormed).isSome = true ↔ i.wellFormed = true := by
  cases h : i.wellFormed <;> simp [Option.filter, h]

/-- Settles O22: the operands of a line are taken one by one, or all at once where the ranges are
those of `wellFormed`. -/
theorem assemblerTakesInRangeOperandsOnly : Obligations.AssemblerTakesInRangeOperandsOnly := by
  unfold Obligations.AssemblerTakesInRangeOperandsOnly
  intro u v w x
  simp only [assembleLine, Option.isSome_map]
  refine ⟨?_, ?_, ?_, ?_, ?_, ?_⟩
  · exact (isSome_bind_iff fun _ => isSome_bind_iff fun _ => isSome_bind_some_iff).trans
      (by simp only [byteOperand_isSome])
  · exact (isSome_bind_iff fun _ => isSome_bind_iff fun _ => isSome_bind_iff fun _ =>
      isSome_bind_some_iff).trans (by simp only [byteOperand_isSome])
  · rw [chunkOf, Option.isSome_map, ranged_isSome]
  · rw [chunkOf, filter_wellFormed_isSome]
    simp only [Instr.wellFormed, Bool.and_eq_true, inRange_iff, and_assoc]
  · rw [chunkOf, filter_wellFormed_isSome]
    simp only [Instr.wellFormed, Bool.and_eq_true, inRange_iff, and_assoc]
  · rw [chunkOf, Option.isSome_map, ranged_isSome]

/-! ## `REPEAT` -/

/-- Without a rest, every run has the longest length (R73). -/
theorem repeatRuns_of_dvd {n : Nat} (h : n % 62 = 0) :
    repeatRuns n = List.replicate (n / 62) 62 := by
  rw [repeatRuns, if_pos h, List.append_nil]

/-- A rest is one more run, the last (R73). -/
theorem repeatRuns_of_rest {n : Nat} (h : n % 62 ≠ 0) :
    repeatRuns n = List.replicate (n / 62) 62 ++ [n % 62] := by
  rw [repeatRuns, if_neg h]

/-- `REPEAT n` spells the runs of `repeatRuns` (R73). -/
theorem assembleLine_repeatRun {n : Nat} (h : 1 ≤ n) :
    assembleLine (.repeatRun n) = some ((repeatRuns n).flatMap fun k => encode (.run k)) :=
  if_pos (by omega)

/-- Settles O23, with the runs of `repeatRuns`, without a rest and with one. -/
theorem repeatSpellsItsRuns : Obligations.RepeatSpellsItsRuns := by
  unfold Obligations.RepeatSpellsItsRuns
  intro n hn
  refine ⟨repeatRuns n, assembleLine_repeatRun hn, ?_⟩
  by_cases hrest : n % 62 = 0
  · rw [repeatRuns_of_dvd hrest, if_pos hrest]
    refine ⟨?_, fun k hk => ?_, by simp, fun k hk => ?_⟩
    · rw [List.sum_replicate, smul_eq_mul]
      omega
    · obtain rfl := List.eq_of_mem_replicate hk
      omega
    · exact List.eq_of_mem_replicate (List.mem_of_mem_dropLast hk)
  · rw [repeatRuns_of_rest hrest, if_neg hrest]
    refine ⟨?_, fun k hk => ?_, by simp, fun k hk => ?_⟩
    · rw [List.sum_append, List.sum_replicate, smul_eq_mul, List.sum_singleton]
      omega
    · rcases List.mem_append.1 hk with hk | hk
      · obtain rfl := List.eq_of_mem_replicate hk
        omega
      · obtain rfl := List.mem_singleton.1 hk
        omega
    · rw [List.dropLast_concat] at hk
      exact List.eq_of_mem_replicate hk

end Sys2Proof.Machine

/-! The effect of each chunk in any state (42_literal_chunks.md to 45_run_chunk.md, R94): every kind
but INDEX and RUN is the common update with its pixel. -/

namespace Sys2Proof.Machine

/-! ## The common update -/

/-- The common update of R94 as the statements about single chunks spell it: the pixel is emitted
and written to its own slot, and `RUN` is kept. -/
theorem exec_finishChunk_effect {i : Instr} {p : Pixel} {len : Nat} {s : State}
    (h : exec i s = .next (finishChunk p len s)) :
    ∃ t k, exec i s = .next t ∧ SlotOf k p ∧ Emitted p len s t ∧ CacheWritten k p s t ∧
      t.run = s.run :=
  ⟨_, pixelHash p, h, pixelHash_val p, emitted_finishChunk p len s,
    cacheWritten_finishChunk p len s, finishChunk_run p len s⟩

/-- A chunk whose pixel is the delta adder's moves the three channels and keeps alpha (R109). -/
theorem exec_deltaAdd_effect {i : Instr} {dr dg db : Int} {len : Nat} {s : State}
    (h : exec i s = .next (finishChunk (deltaAdd s.prev dr dg db) len s)) :
    ∃ t p k, exec i s = .next t ∧
      MovedBy dr s.prev.r p.r ∧ MovedBy dg s.prev.g p.g ∧ MovedBy db s.prev.b p.b ∧
      p.a = s.prev.a ∧ SlotOf k p ∧ Emitted p len s t ∧ CacheWritten k p s t ∧ t.run = s.run := by
  obtain ⟨t, k, heffect⟩ := exec_finishChunk_effect h
  obtain ⟨hnext, hslot, hemit, hcache, hrun⟩ := heffect
  obtain ⟨hr, hg, hb, ha⟩ := deltaAdderLanesWrap s.prev dr dg db
  exact ⟨t, _, k, hnext, hr, hg, hb, ha, hslot, hemit, hcache, hrun⟩

/-! ## The literals and the deltas -/

/-- Settles O24: RGB is the common update with its literal. -/
theorem rgbEmitsItsLiteral : Obligations.RgbEmitsItsLiteral := by
  unfold Obligations.RgbEmitsItsLiteral
  exact fun r g b s => exec_finishChunk_effect (exec_rgb r g b s)

/-- Settles O25: RGBA is the common update with its literal. -/
theorem rgbaEmitsItsLiteral : Obligations.RgbaEmitsItsLiteral := by
  unfold Obligations.RgbaEmitsItsLiteral
  exact fun r g b a s => exec_finishChunk_effect (exec_rgba r g b a s)

/-- The arm of a DIFF chunk: the delta adder, then the common update (R110). -/
theorem exec_diff (dr dg db : Int) (s : State) :
    exec (.diff dr dg db) s = .next (finishChunk (deltaAdd s.prev dr dg db) 1 s) := rfl

/-- Settles O27: DIFF is the common update with the delta adder's pixel. -/
theorem diffMovesEachChannel : Obligations.DiffMovesEachChannel := by
  unfold Obligations.DiffMovesEachChannel
  exact fun dr dg db s => exec_deltaAdd_effect (exec_diff dr dg db s)

/-- Settles O28: LUMA is the common update with the delta adder's pixel around green. -/
theorem lumaMovesAroundGreen : Obligations.LumaMovesAroundGreen := by
  unfold Obligations.LumaMovesAroundGreen
  exact fun dg drdg dbdg s => exec_deltaAdd_effect (exec_luma dg drdg dbdg s)

/-- A byte whose top two bits are 1 is the tag byte of a DIFF chunk, its fields as numbers (R61,
R63). -/
theorem decode_memRead_diff {s : State} {a : Nat} (h : (inByte s a).toNat / 64 = 1) :
    decode (memRead s a 1) =
      .ok (.diff (((inByte s a).toNat / 16 % 4 : Nat) - 2) (((inByte s a).toNat / 4 % 4 : Nat) - 2)
        (((inByte s a).toNat % 4 : Nat) - 2), []) := by
  have hkind : kindOf (inByte s a) = .diff := (kindOf_eq_diff_iff _).2 (by omega)
  rw [memRead_succ, memRead, decode_of_diff [] hkind, decodeDiff, bits_5_4, bits_3_2, bits_1_0]

/-- Settles O41: the byte decodes to DIFF, and the step is its arm. -/
theorem diffChunkStep : Obligations.DiffChunkStep := by
  unfold Obligations.DiffChunkStep
  intro s hat hlen htag b0
  have hstep := step_of_decode hat hlen (decode_memRead_diff htag)
  rw [hstep, ← hat.run]
  exact exec_deltaAdd_effect (exec_diff _ _ _ s)

/-! ## INDEX -/

/-- Settles O26: INDEX is the common update without its cache write. -/
theorem indexEmitsItsSlot : Obligations.IndexEmitsItsSlot := by
  unfold Obligations.IndexEmitsItsSlot
  exact fun i s => ⟨_, exec_index i s, emitted_advance _ 1 s, advance_cache _ 1 s,
    advance_run _ 1 s⟩

/-- Settles O33: the chunk left its pixel in the slot that the INDEX reads. -/
theorem indexReturnsThePixelJustWritten : Obligations.IndexReturnsThePixelJustWritten := by
  unfold Obligations.IndexReturnsThePixelJustWritten
  intro i s t k h hcount hkind hslot
  obtain rfl : k = pixelHash t.prev := Fin.ext hslot
  rcases exec_overruns_or_writes_cache h hkind with rfl | hwritten
  · simp at hcount
  · refine ⟨_, exec_index _ t, ?_, ?_⟩
    · rw [advance_prev, hwritten.slot]
    · rw [advance_out, hwritten.slot]

/-- Settles O35: 64 divides the adder's modulus, and the remainder of a sum is that of its terms'
remainders. -/
theorem hashFromANarrowAdder : Obligations.HashFromANarrowAdder := by
  unfold Obligations.HashFromANarrowAdder
  intro p w hw
  have hdvd : 64 ∣ 2 ^ w := pow_dvd_pow 2 hw
  rw [Nat.mod_mod_of_dvd _ hdvd, pixelHash_val]
  exact ⟨rfl, by omega⟩

/-! ## RUN -/

/-- Settles O29: a run that fits loads the counter and is the common update with `PREV`. -/
theorem runEmitsThePreviousPixel : Obligations.RunEmitsThePreviousPixel := by
  unfold Obligations.RunEmitsThePreviousPixel
  intro n s _ h62 hfits
  have hrun : (finishChunk s.prev 1 (loadRun n s)).run.toNat = n - 1 := by
    rw [finishChunk_run, loadRun_run_toNat h62]
  exact ⟨_, pixelHash s.prev, exec_run_of_fits hfits, hrun, pixelHash_val s.prev,
    emitted_loadRun s.prev 1 n s, cacheWritten_loadRun s.prev 1 n s⟩

/-- Settles O30: one pixel too many refuses the run, exactly the remaining pixels do not. -/
theorem runTooLongRaisesOverrun : Obligations.RunTooLongRaisesOverrun := by
  unfold Obligations.RunTooLongRaisesOverrun
  intro n s
  refine ⟨fun hexceeds => ⟨_, exec_run_of_exceeds hexceeds, raisedFrom_raiseError .overrun s⟩,
    fun hexact _ => ?_⟩
  have hemit := emitted_loadRun s.prev 1 n s
  exact ⟨_, exec_run_of_fits hexact.ge, hemit.err, hemit.count⟩

end Sys2Proof.Machine

/-! The host's input and output streams (20_memory.md R42 to R47), and a step with a host that waits
or makes no move (R51, R89). -/

namespace Sys2Proof.Machine

/-! ## The input buffer -/

theorem step_placeInput {s : State} {offset : Nat} {bytes : List Byte} {later : List HostMove}
    (hm : s.moves = .placeInput offset bytes :: later) :
    step s = placeInput offset bytes { s with moves := later } :=
  stepWith_cons _ hm

/-- Outside a call the host places bytes at offsets `IN` can have (R42, R54). -/
theorem placeInput_idle {s : State} {offset : Nat} {bytes : List Byte} (hb : s.phase.busy = false)
    (h : offset + bytes.length ≤ Config.inputOffsets) :
    placeInput offset bytes s = .next { s with inBuf := s.inBuf.writeBytes offset bytes } := by
  rw [placeInput, if_neg (by simp [hb]), if_neg (by omega)]

/-- A listed byte is what `IN` reads as (R43). -/
theorem inByte_of_read {s : State} {a : Nat} {v : Byte} (h : s.inBuf.read a = some v) :
    inByte s a = v := by
  rw [inByte, h]

/-- `IN` reads the same where the same byte, or none, is listed (R43). -/
theorem inByte_of_read_eq {s t : State} {a : Nat} (h : t.inBuf.read a = s.inBuf.read a) :
    inByte t a = inByte s a := by
  rw [inByte, inByte, h]

/-- Settles O8, by what the buffer reads inside and outside the bytes placed. -/
theorem placedInputReadsBack : Obligations.PlacedInputReadsBack := by
  unfold Obligations.PlacedInputReadsBack
  intro s offset bytes later hh hc hwf hroom hm
  have hplaced := placeInput_idle (s := { s with moves := later }) (busy_eq_false hh hc) hroom
  refine ⟨s.inBuf.writeBytes offset bytes, (step_placeInput hm).trans hplaced,
    s.inBuf.wf_writeBytes offset bytes hwf hroom, fun k hk => ?_, fun a ha => ?_⟩
  · exact inByte_of_read (s.inBuf.read_writeBytes_inside offset k bytes hwf hroom hk)
  · exact inByte_of_read_eq (s.inBuf.read_writeBytes_outside offset a bytes hwf hroom ha)

/-- Settles O9: the phase is asked first, then the last offset. -/
theorem inputWriteStops : Obligations.InputWriteStops := by
  unfold Obligations.InputWriteStops
  intro s offset bytes later hm
  rw [step_placeInput hm, placeInput]
  refine ⟨fun hp => if_pos ((busy_iff s.phase).2 hp), fun hh hc hpast => ?_⟩
  have hidle : s.phase.busy = false := busy_eq_false hh hc
  rw [if_neg (by simp [hidle]), if_pos hpast]

/-! ## The output stream -/

/-- Byte `j` of element `k` of `OUT` (R47). -/
theorem outByte_of_element {s : State} {k j : Nat} {p : Pixel} (hj : j < 4)
    (h : s.out[k]? = some p) : outByte s (4 * k + j) = some (channelByte p j) := by
  rw [outByte, show (4 * k + j) / 4 = k by omega, show (4 * k + j) % 4 = j by omega, h,
    Option.map_some]

/-- There is no byte past the last element (R47). -/
theorem outByte_past_end {s : State} {off : Nat} (h : 4 * s.out.length ≤ off) :
    outByte s off = none := by
  rw [outByte, List.getElem?_eq_none (by omega), Option.map_none]

/-- Settles O12, by the channel of each of an element's four bytes. -/
theorem outputByteOrder : Obligations.OutputByteOrder := by
  unfold Obligations.OutputByteOrder
  intro s k
  refine ⟨fun p hp => ⟨?_, ?_, ?_, ?_⟩, outByte_past_end⟩
  · exact outByte_of_element (j := 0) (by decide) hp
  · exact outByte_of_element (j := 1) (by decide) hp
  · exact outByte_of_element (j := 2) (by decide) hp
  · exact outByte_of_element (j := 3) (by decide) hp

/-! ## A host that waits, or makes no move -/

theorem step_nil {s : State} (hm : s.moves = []) :
    step s = decoderStep Config.zeroDimPolicy s := stepWith_nil _ hm

/-- During a call a wait of the host is the decoder's step (R51). -/
theorem step_wait_busy {s : State} {later : List HostMove} (hm : s.moves = .wait :: later)
    (hb : s.phase.busy = true) :
    step s = decoderStep Config.zeroDimPolicy { s with moves := later } :=
  (stepWith_cons _ hm).trans (if_pos hb)

/-- Outside a call a wait of the host passes (R89). -/
theorem step_wait_idle {s : State} {later : List HostMove} (hm : s.moves = .wait :: later)
    (hb : s.phase.busy = false) : step s = .next { s with moves := later } :=
  (stepWith_cons _ hm).trans (if_neg (by simp [hb]))

/-- Settles O49: no phase outside a call has a decoder step. -/
theorem noStepOutsideACall : Obligations.NoStepOutsideACall := by
  unfold Obligations.NoStepOutsideACall
  intro s hp
  have hidle := busy_of_outside hp
  exact ⟨fun hm => (step_nil hm).trans (decoderStep_stops _ hidle),
    fun later hm => step_wait_idle hm hidle⟩

theorem decoderStep_chunk (pol : ZeroDimPolicy) {s : State} (hp : s.phase = .chunk) :
    decoderStep pol s = chunkStep s := by
  rw [decoderStep, hp]

/-- With no run being continued, the chunk step runs the chunk it fetches (R92). -/
theorem chunkStep_of_fetch {s : State} {i : Instr} (hr : s.run = 0) (hf : fetch s = .ok i) :
    chunkStep s = exec i s := by
  rw [chunkStep, if_neg (not_not.2 hr), hf]

/-- Settles O37: with or without a wait, the chunk step fetches what the bytes decode to. -/
theorem stepRunsTheDecodedChunk : Obligations.StepRunsTheDecodedChunk := by
  unfold Obligations.StepRunsTheDecodedChunk
  intro s i n hp hr hlen hd
  refine ⟨fun hm => step_of_decode ⟨hp, hr, hm⟩ hlen hd, fun later hm => ?_⟩
  have hfetch : fetch { s with moves := later } = .ok i :=
    (fetch_withHost later s.replies s).trans (fetch_of_decode hlen hd)
  calc step s
    _ = decoderStep Config.zeroDimPolicy { s with moves := later } :=
      step_wait_busy hm ((busy_iff _).2 (.inr hp))
    _ = chunkStep { s with moves := later } := decoderStep_chunk _ hp
    _ = exec i { s with moves := later } := chunkStep_of_fetch hr hfetch

/-- Settles O50: the decoder's step is the same under any moves the host has still to make. -/
theorem decoderDoesNotSeeTheHostsMoves : Obligations.DecoderDoesNotSeeTheHostsMoves := by
  unfold Obligations.DecoderDoesNotSeeTheHostsMoves
  intro s t later hb h
  rw [step_nil rfl] at h
  obtain ⟨_, _, _, hreplies⟩ := decoderStep_frame h
  have hwait := step_wait_busy (s := { s with moves := .wait :: later }) rfl hb
  have hlater := decoderStep_withHost later s.replies h
  have hsame : withHost later s.replies t = { t with moves := later } := by
    rw [withHost, ← hreplies]
  exact hwait.trans (hlater.trans (congrArg _ hsame))

end Sys2Proof.Machine

/-! Every step of the machine, by what it can change (R5, R11): the decoder's step, START, a reset,
or a move of the host that touches its own fields alone. -/

namespace Sys2Proof.Machine

/-- A state with other values in what only the host writes (R31, R42), all else the same. -/
def withHostFields (len : Word64) (buf : Memory) (l : List HostMove) (r : List HostReply)
    (s : State) : State :=
  { s with inLen := len, inBuf := buf, moves := l, replies := r }

/-- What a move of the host other than START and reset does: it may place bytes, in canonical form,
and only a write of a half of `IN_LEN` outside a call changes that length. -/
def HostOnly (s t : State) : Prop :=
  ∃ len buf l r, t = withHostFields len buf l r s ∧ (s.inBuf.wf = true → buf.wf = true) ∧
    (len = s.inLen ∨ s.phase.busy = false ∧
      ∃ n v later, (n = 2 ∨ n = 3) ∧ s.moves = .writeReg n v :: later)

/-- A move that leaves the host's input as it is. -/
theorem hostOnly_withHost (l : List HostMove) (r : List HostReply) (s : State) :
    HostOnly s (withHost l r s) :=
  ⟨s.inLen, s.inBuf, l, r, rfl, id, .inl rfl⟩

/-- A register write is an accepted START or touches the host's own fields alone. -/
theorem writeRegister_start_or_hostOnly {n : Nat} {v : Word32} {s : State} {later : List HostMove}
    (hm : s.moves = .writeReg n v :: later) :
    (StartNext s ∧
        writeRegister n v { s with moves := later } = startCall { s with moves := later }) ∨
      HostOnly s (writeRegister n v { s with moves := later }) := by
  rcases writeRegister_cases n v { s with moves := later } with
    ⟨rfl, hv, hb, h⟩ | ⟨hb, hn, len, h⟩ | h
  · exact .inl ⟨⟨hb, v, later, hm, hv⟩, h⟩
  · exact .inr ⟨len, s.inBuf, later, s.replies, h, id, .inr ⟨hb, n, v, later, hn, hm⟩⟩
  · rw [h]
    exact .inr (hostOnly_withHost later s.replies s)

/-- The four kinds of step. -/
theorem stepWith_kinds {pol : ZeroDimPolicy} {s t : State} (h : stepWith pol s = .next t) :
    decoderStep pol { s with moves := s.moves.tail } = .next t ∨
    (StartNext s ∧ t = startCall { s with moves := s.moves.tail }) ∨
    (ResetNext s ∧ t = hardwareReset { s with moves := s.moves.tail }) ∨
    HostOnly s t := by
  rcases stepWith_cases h with ⟨hm, hd⟩ | ⟨later, hm, _, hd⟩ | ⟨later, _, _, rfl⟩ |
    ⟨n, v, later, hm, rfl⟩ | ⟨n, later, _, rfl⟩ | ⟨k, later, _, rfl⟩ |
    ⟨offset, bytes, later, _, _, hroom, rfl⟩ | ⟨later, hm, rfl⟩
  · have hsame : { s with moves := s.moves.tail } = s := by
      rw [hm, List.tail_nil, ← hm]
    exact .inl (hsame.symm ▸ hd)
  · rw [hm]
    exact .inl hd
  · exact .inr (.inr (.inr (hostOnly_withHost later s.replies s)))
  · rw [hm]
    rcases writeRegister_start_or_hostOnly hm with hstart | honly
    · exact .inr (.inl hstart)
    · exact .inr (.inr (.inr honly))
  · exact .inr (.inr (.inr (hostOnly_withHost later _ s)))
  · exact .inr (.inr (.inr (hostOnly_withHost later _ s)))
  · exact .inr (.inr (.inr ⟨s.inLen, _, later, s.replies, rfl,
      fun hwf => s.inBuf.wf_writeBytes offset bytes hwf hroom, .inl rfl⟩))
  · rw [hm]
    exact .inr (.inr (.inl ⟨⟨later, hm⟩, rfl⟩))

/-- The host's own fields are no part of a call's outcome (R52). -/
theorem HostOnly.sameOutcome {s t : State} (h : HostOnly s t) : SameOutcome s t := by
  obtain ⟨len, buf, l, r, rfl, _⟩ := h
  exact ⟨rfl, rfl, ⟨rfl, rfl, rfl, rfl, rfl, rfl, rfl⟩, rfl, rfl, rfl⟩

/-- Settles O53: after a call the decoder has no step, and other moves write no result. -/
theorem resultsStayUntilStartOrReset : Obligations.ResultsStayUntilStartOrReset := by
  unfold Obligations.ResultsStayUntilStartOrReset
  intro s t h hp hnostart hnoreset
  have hidle : s.phase.busy = false := busy_of_outside (.inr hp)
  rcases stepWith_kinds h with hd | ⟨hstart, _⟩ | ⟨hreset, _⟩ | honly
  · have hbusy := decoderStep_next_busy (s := { s with moves := s.moves.tail }) hd
    simp [hbusy] at hidle
  · exact absurd hstart hnostart
  · exact absurd hreset hnoreset
  · exact honly.sameOutcome

end Sys2Proof.Machine

/-! The header parse's errors (40_header_parser.md R78 to R86), in the order the checks come. -/

namespace Sys2Proof.Machine

/-! ## The checks as numbers -/

/-- Four bytes read big-endian are the magic exactly when they spell "qoif" (R79). -/
theorem be32_eq_goodMagic_iff (s : State) :
    be32 s 0 = Config.goodMagic ↔
      inByte s 0 = 0x71 ∧ inByte s 1 = 0x6F ∧ inByte s 2 = 0x69 ∧ inByte s 3 = 0x66 := by
  have h0 := byte_lt (inByte s 0)
  have h1 := byte_lt (inByte s 1)
  have h2 := byte_lt (inByte s 2)
  have h3 := byte_lt (inByte s 3)
  rw [← BitVec.toNat_inj, be32_toNat, byte_eq_iff, byte_eq_iff, byte_eq_iff, byte_eq_iff]
  simp only [Nat.zero_add, show Config.goodMagic.toNat = 0x716F6966 from rfl,
    show (0x71 : Byte).toNat = 0x71 from rfl, show (0x6F : Byte).toNat = 0x6F from rfl,
    show (0x69 : Byte).toNat = 0x69 from rfl, show (0x66 : Byte).toNat = 0x66 from rfl]
  omega

theorem magicGood_iff (s : State) :
    MagicGood s ↔ ¬ s.inLen.toNat < Config.headerLen ∧ be32 s 0 = Config.goodMagic := by
  rw [be32_eq_goodMagic_iff]
  exact ⟨fun ⟨hlen, hq, ho, hi, hf⟩ => ⟨not_lt.2 hlen, hq, ho, hi, hf⟩,
    fun ⟨hlen, hq, ho, hi, hf⟩ => ⟨not_lt.1 hlen, hq, ho, hi, hf⟩⟩

theorem not_channelsGood_iff (s : State) :
    ¬ ChannelsGood s ↔ inByte s 12 ≠ 3 ∧ inByte s 12 ≠ 4 := not_or

theorem not_colorspaceGood_iff (s : State) :
    ¬ ColorspaceGood s ↔ inByte s 13 ≠ 0 ∧ inByte s 13 ≠ 1 := not_or

/-- A header parse that finds an error raises it. -/
theorem stepWith_raises {pol : ZeroDimPolicy} {s : State} {e : FormatError} (h : AtHeader s)
    (he : headerError pol s = some e) : ∃ t, stepWith pol s = .next t ∧ RaisedFrom e s t := by
  rw [stepWith_header pol h, headerStep_of_error he]
  exact ⟨_, rfl, raisedFrom_raiseError e s⟩

/-- A header parse that finds no error raises none. -/
theorem stepWith_accepts {pol : ZeroDimPolicy} {s : State} (h : AtHeader s)
    (he : headerError pol s = none) :
    ∃ t, stepWith pol s = .next t ∧ t.phase ≠ .error ∧ t.err = s.err := by
  rw [stepWith_header pol h, headerStep_of_none he]
  exact ⟨_, rfl, latchHeader_phase_ne_error _ _ _ _ _ s, latchHeader_err _ _ _ _ _ s⟩

/-! ## The first error -/

section
variable {s : State} (pol : ZeroDimPolicy)

theorem headerError_truncated (h : s.inLen.toNat < Config.headerLen) :
    headerError pol s = some .truncated := if_pos h

theorem headerError_badMagic (hlen : Config.headerLen ≤ s.inLen.toNat) (h : ¬ MagicGood s) :
    headerError pol s = some .badMagic := by
  have hmagic : be32 s 0 ≠ Config.goodMagic := fun hgood =>
    h ((magicGood_iff s).2 ⟨not_lt.2 hlen, hgood⟩)
  exact (if_neg (not_lt.2 hlen)).trans (if_pos hmagic)

/-- With a good length and magic the channels byte decides next (R81, R86). -/
theorem headerError_invalidChannels (hm : MagicGood s) (h : ¬ ChannelsGood s) :
    headerError pol s = some .invalidChannels := by
  obtain ⟨hlen, hmagic⟩ := (magicGood_iff s).1 hm
  simp only [headerError]
  rw [if_neg hlen, if_neg (not_not.2 hmagic), if_pos ((not_channelsGood_iff s).1 h)]

/-- Then the colorspace byte (R82, R86). -/
theorem headerError_invalidColorspace (hm : MagicGood s) (hc : ChannelsGood s)
    (h : ¬ ColorspaceGood s) : headerError pol s = some .invalidColorspace := by
  obtain ⟨hlen, hmagic⟩ := (magicGood_iff s).1 hm
  simp only [headerError]
  rw [if_neg hlen, if_neg (not_not.2 hmagic),
    if_neg (mt (not_channelsGood_iff s).2 (not_not.2 hc)), if_pos ((not_colorspaceGood_iff s).1 h)]

/-- A header that passes every check before it is left to the zero-dimension check (R83, R86). -/
theorem headerError_of_good (hm : MagicGood s) (hc : ChannelsGood s) (hcs : ColorspaceGood s) :
    headerError pol s =
      if (bigEndianAt s 4 = 0 ∨ bigEndianAt s 8 = 0) ∧ pol = .reject then some .zeroDimension
      else none := by
  obtain ⟨hlen, hmagic⟩ := (magicGood_iff s).1 hm
  simp only [headerError, be32_eq_zero_iff]
  rw [if_neg hlen, if_neg (not_not.2 hmagic),
    if_neg (mt (not_channelsGood_iff s).2 (not_not.2 hc)),
    if_neg (mt (not_colorspaceGood_iff s).2 (not_not.2 hcs))]
  by_cases hzero : bigEndianAt s 4 = 0 ∨ bigEndianAt s 8 = 0 <;> cases pol <;> simp [hzero]

end

/-- Settles O14, by the first error of each header. -/
theorem headerErrorsComeInOrder : Obligations.HeaderErrorsComeInOrder := by
  unfold Obligations.HeaderErrorsComeInOrder
  intro pol s hat
  refine ⟨fun hshort => ?_, fun hlen hmagic => ?_, fun hm hc => ?_, fun hm hc hcs => ?_,
    fun hm hc hcs hzero hpol => ?_, fun hm hc hcs hpass => ?_⟩
  · exact stepWith_raises hat (headerError_truncated pol hshort)
  · exact stepWith_raises hat (headerError_badMagic pol hlen hmagic)
  · exact stepWith_raises hat (headerError_invalidChannels pol hm hc)
  · exact stepWith_raises hat (headerError_invalidColorspace pol hm hc hcs)
  · exact stepWith_raises hat ((headerError_of_good pol hm hc hcs).trans (if_pos ⟨hzero, hpol⟩))
  · have hno : ¬ ((bigEndianAt s 4 = 0 ∨ bigEndianAt s 8 = 0) ∧ pol = .reject) := by
      rintro ⟨hzero, rfl⟩
      rcases hpass with hpol | ⟨hw, hh⟩
      · cases hpol
      · exact hzero.elim hw hh
    exact stepWith_accepts hat ((headerError_of_good pol hm hc hcs).trans (if_neg hno))

end Sys2Proof.Machine

/-! What a chunk step does in full (41_chunk_dispatch.md R90 to R97): it raises an error, or it
emits one pixel, stays within `IN_LEN`, and moves the run counter by a rule of its own. -/

namespace Sys2Proof.Machine

/-! ## The chunk that was fetched -/

/-- A fetched chunk has in-range operands, and its bytes lie whole below `IN_LEN` (R75, R91). -/
theorem fetch_ok {s : State} {i : Instr} (h : fetch s = .ok i) :
    i.wellFormed = true ∧ (encode i).length = chunkLen (inByte s s.pos.toNat) ∧
      s.pos.toNat + (encode i).length ≤ s.inLen.toNat := by
  rcases fetch_cases s with ⟨hcut, _⟩ | ⟨hlen, j, hwhole, hd⟩
  · rw [hcut] at h
    cases h
  · obtain rfl : j = i := Except.ok.inj (hwhole.symm.trans h)
    obtain ⟨hwf, hbytes⟩ := encode_decode hd
    have hlength : (encode j).length = chunkLen (inByte s s.pos.toNat) := by
      rw [← memRead_length s s.pos.toNat (chunkLen _), ← hbytes, List.append_nil]
    exact ⟨hwf, hlength, hlength ▸ hlen⟩

/-! ## Emitting one pixel -/

/-- What a step that emits a pixel does (R93, R94, R106, R113): it reads `len` bytes below `IN_LEN`
or none, writes the pixel to its slot or none, and counts `RUN` down or loads it with a run that
fits the remaining pixels. -/
structure ChunkEmits (len : Nat) (s t : State) : Prop where
  emitted : Emitted t.prev len s t
  bytes : len = 0 ∨ s.pos.toNat + len ≤ s.inLen.toNat
  cache : t.cache = s.cache ∨ CacheWritten (pixelHash t.prev) t.prev s t
  run : t.run.toNat = s.run.toNat - 1 ∨
    t.run.toNat ≤ 61 ∧ s.count.toNat + (t.run.toNat + 1) ≤ s.npix.toNat

theorem chunkEmits_finishChunk {p : Pixel} {len : Nat} {s : State} (hr : s.run = 0)
    (hbytes : s.pos.toNat + len ≤ s.inLen.toNat) : ChunkEmits len s (finishChunk p len s) where
  emitted := emitted_finishChunk p len s
  bytes := .inr hbytes
  cache := .inr (cacheWritten_finishChunk p len s)
  run := .inl (by rw [finishChunk_run, hr]; rfl)

theorem chunkEmits_index {k : Fin 64} {s : State} (hr : s.run = 0)
    (hbytes : s.pos.toNat + 1 ≤ s.inLen.toNat) : ChunkEmits 1 s (advance s.cache[k] 1 s) where
  emitted := emitted_advance s.cache[k] 1 s
  bytes := .inr hbytes
  cache := .inl rfl
  run := .inl (by rw [advance_run, hr]; rfl)

theorem chunkEmits_run {n : Nat} {s : State} (h1 : 1 ≤ n) (h62 : n ≤ 62)
    (hfits : s.count.toNat + n ≤ s.npix.toNat) (hbytes : s.pos.toNat + 1 ≤ s.inLen.toNat) :
    ChunkEmits 1 s (finishChunk s.prev 1 (loadRun n s)) where
  emitted := emitted_loadRun s.prev 1 n s
  bytes := .inr hbytes
  cache := .inr (cacheWritten_loadRun s.prev 1 n s)
  run := .inr (by rw [finishChunk_run, loadRun_run_toNat h62]; omega)

theorem chunkEmits_runContinue {s : State} (hr : s.run ≠ 0) : ChunkEmits 0 s (runContinue s) where
  emitted := emitted_runContinue s
  bytes := .inl rfl
  cache := .inl rfl
  run := .inl (runContinue_run_toNat hr)

/-- A chunk with in-range operands overruns or emits its pixel (R92, R116). -/
theorem exec_overruns_or_chunkEmits {i : Instr} {s t : State} (h : exec i s = .next t)
    (hwf : i.wellFormed = true) (hr : s.run = 0)
    (hbytes : s.pos.toNat + (encode i).length ≤ s.inLen.toNat) :
    t = raiseError .overrun s ∨ ChunkEmits (encode i).length s t := by
  cases i with
  | rgb | rgba | diff | luma =>
    obtain rfl := Host.Outcome.next.inj h
    exact .inr (chunkEmits_finishChunk hr hbytes)
  | index k =>
    obtain rfl := Host.Outcome.next.inj h
    exact .inr (chunkEmits_index hr hbytes)
  | run n =>
    simp only [Instr.wellFormed, Bool.and_eq_true, decide_eq_true_eq] at hwf
    by_cases hfits : s.count.toNat + n ≤ s.npix.toNat
    · obtain rfl := Host.Outcome.next.inj ((exec_run_of_fits hfits).symm.trans h)
      exact .inr (chunkEmits_run hwf.1 hwf.2 hfits hbytes)
    · obtain rfl := Host.Outcome.next.inj ((exec_run_of_exceeds (not_le.1 hfits)).symm.trans h)
      exact .inl rfl

/-- A chunk step raises an error with no run being continued, or emits one pixel (R97). -/
theorem chunkStep_raises_or_chunkEmits {s t : State} (h : chunkStep s = .next t) :
    (s.run = 0 ∧ ∃ e, t = raiseError e s) ∨ ∃ len, ChunkEmits len s t := by
  rcases chunkStep_cases h with ⟨hr, rfl⟩ | ⟨hr, _, rfl⟩ | ⟨hr, i, hfetch, hexec⟩
  · exact .inr ⟨0, chunkEmits_runContinue hr⟩
  · exact .inl ⟨hr, .truncated, rfl⟩
  · obtain ⟨hwf, _, hbytes⟩ := fetch_ok hfetch
    rcases exec_overruns_or_chunkEmits hexec hwf hr hbytes with rfl | hemits
    · exact .inl ⟨hr, .overrun, rfl⟩
    · exact .inr ⟨_, hemits⟩

/-! ## Its numbers -/

/-- `POS` does not wrap: the bytes of a chunk lie below `IN_LEN` (R91). -/
theorem ChunkEmits.pos_toNat {len : Nat} {s t : State} (h : ChunkEmits len s t) :
    t.pos.toNat = s.pos.toNat + len := by
  have hbytes := h.bytes
  have hp := s.pos.isLt
  have hl := s.inLen.isLt
  rw [h.emitted.pos, BitVec.toNat_add, BitVec.toNat_ofNat]
  omega

theorem ChunkEmits.pos_le_inLen {len : Nat} {s t : State} (h : ChunkEmits len s t)
    (hpos : s.pos.toNat ≤ s.inLen.toNat) : t.pos.toNat ≤ t.inLen.toNat := by
  have hbytes := h.bytes
  rw [h.pos_toNat, h.emitted.input.inLen]
  omega

/-- `COUNT` does not wrap while pixels remain (R21). -/
theorem Emitted.count_toNat {p : Pixel} {len : Nat} {s t : State} (h : Emitted p len s t)
    (hremain : s.count.toNat < s.npix.toNat) : t.count.toNat = s.count.toNat + 1 := by
  have hn := s.npix.isLt
  rw [h.count, BitVec.toNat_add, show (1 : Word64).toNat = 1 from rfl]
  omega

/-- A pixel emitted in CHUNK ends the call exactly when it was the last (R93). -/
theorem Emitted.done_or_chunk {p : Pixel} {len : Nat} {s t : State} (h : Emitted p len s t)
    (hp : s.phase = .chunk) :
    t.phase = .done ∧ t.count = t.npix ∨ t.phase = .chunk ∧ t.count ≠ t.npix := by
  rw [h.phase, h.count, h.header.npix]
  by_cases hlast : s.count + 1 = s.npix
  · exact .inl ⟨if_pos hlast, hlast⟩
  · exact .inr ⟨(if_neg hlast).trans hp, hlast⟩

end Sys2Proof.Machine

/-! The invariant (10_state.md R39): it holds after reset and every step keeps it. -/

namespace Sys2Proof.Machine

/-! ## Reset, START and the host's moves -/

/-- The reset values meet the invariant (R39, R40). -/
theorem ResetValues.inv {t : State} (h : ResetValues t) (hform : t.inBuf.wf = true) : t.Inv where
  countLe := by simp [h.count]
  pixelsRemain := by simp [h.phase]
  runFits := by simp [h.phase]
  posInInput := by simp [h.pos]
  posPastHeader := by simp [h.phase]
  runZero := fun _ => h.run
  runMax := by simp [h.run]
  headerKnown := by simp [h.phase]
  headerUnknown := fun _ => h.hdrValid
  cacheSlots := fun i => .inl (h.cache i)
  headerGood := by simp [h.hdrValid]
  headerZero := fun _ =>
    ⟨h.magic, h.width, h.height, h.channels, h.colorspace, h.npix, h.pos⟩
  outLength := by simp [h.out, h.count]
  doneFull := by simp [h.phase]
  errCode := by simp [h.phase, h.err]
  errKnown := by simp [h.err]
  inputForm := hform

/-- Settles O54: the reset state has the reset values. -/
theorem invAtReset : Obligations.InvAtReset := by
  unfold Obligations.InvAtReset
  exact resetValues_reset.inv rfl

/-- The host's own fields enter the invariant only through `IN_LEN` during a call and the canonical
form. -/
theorem State.Inv.withHostFields {s : State} (h : s.Inv) {len : Word64} {buf : Memory}
    (hlen : s.phase.busy = true → len = s.inLen) (hbuf : buf.wf = true) (l : List HostMove)
    (r : List HostReply) : (withHostFields len buf l r s).Inv :=
  { h with
    posInInput := fun hb => (h.posInInput hb).trans_eq (congrArg _ (hlen hb).symm)
    inputForm := hbuf }

theorem State.Inv.withMoves {s : State} (h : s.Inv) (l : List HostMove) :
    { s with moves := l }.Inv :=
  h.withHostFields (fun _ => rfl) h.inputForm l s.replies

theorem HostOnly.inv {s t : State} (honly : HostOnly s t) (h : s.Inv) : t.Inv := by
  obtain ⟨len, buf, l, r, rfl, hform, hlen⟩ := honly
  refine h.withHostFields (fun hb => ?_) (hform h.inputForm) l r
  rcases hlen with hsame | ⟨hidle, _⟩
  · exact hsame
  · simp [hb] at hidle

/-- Outside ERROR no code is shown (R23). -/
theorem State.Inv.err_eq_zero {s : State} (h : s.Inv) (hp : s.phase ≠ .error) : s.err = 0 :=
  not_not.1 fun hne => hp (h.errCode.2 hne)

/-- A call that starts from IDLE: no header is known and `POS` is 0, within any `IN_LEN`. -/
theorem State.Inv.header_of_idle {s : State} (h : s.Inv) (hp : s.phase = .idle) (len : Word64) :
    { s with phase := .header, inLen := len }.Inv := by
  have hvalid := h.headerUnknown (.inr hp)
  obtain ⟨_, _, _, _, _, _, hpos⟩ := h.headerZero hvalid
  have herr := h.err_eq_zero (by simp [hp])
  exact { h with
    pixelsRemain := by simp
    runFits := by simp
    posInInput := by simp [hpos]
    posPastHeader := by simp
    runZero := fun _ => h.runZero (by simp [hp])
    headerKnown := by simp
    headerUnknown := fun _ => hvalid
    doneFull := by simp
    errCode := by simp [herr] }

theorem inv_hardwareReset {s : State} (h : s.Inv) : (hardwareReset s).Inv :=
  (resetValues_hardwareReset s).inv h.inputForm

/-- START leads where a reset does, but for the phase and `IN_LEN` (R40, R134). -/
theorem inv_startCall {s : State} (h : s.Inv) : (startCall s).Inv :=
  (inv_hardwareReset h).header_of_idle rfl s.inLen

/-! ## The decoder's step -/

theorem FormatError.code_ne_zero (e : FormatError) : e.code ≠ 0 := by
  cases e <;> decide

theorem FormatError.code_le (e : FormatError) : e.code.toNat ≤ 6 := by
  cases e <;> decide

/-- A raised error with no run being continued (R10, R39). -/
theorem inv_raiseError {s : State} (h : s.Inv) (hr : s.run = 0) (e : FormatError) :
    (raiseError e s).Inv :=
  { h with
    pixelsRemain := by simp
    runFits := by simp
    posInInput := by simp [Phase.busy]
    posPastHeader := by simp
    runZero := fun _ => hr
    headerKnown := by simp
    headerUnknown := by simp
    doneFull := by simp
    errCode := iff_of_true rfl e.code_ne_zero
    errKnown := e.code_le }

/-- A latched header without pixels ends the call, and any other leads to CHUNK (R85). -/
theorem latchHeader_done_or_chunk (m w h : Word32) (c cs : Byte) (s : State) :
    (latchHeader m w h c cs s).phase = .done ∧ (latchHeader m w h c cs s).npix = 0 ∨
      (latchHeader m w h c cs s).phase = .chunk ∧ (latchHeader m w h c cs s).npix ≠ 0 := by
  have hphase := latchHeader_phase_of_npix m w h c cs s
  by_cases hz : (latchHeader m w h c cs s).npix = 0
  · exact .inl ⟨hphase.trans (if_pos hz), hz⟩
  · exact .inr ⟨hphase.trans (if_neg hz), hz⟩

/-- Before the header is known no pixel has been emitted (R39.1). -/
theorem State.Inv.count_eq_zero {s : State} (h : s.Inv) (hp : s.phase = .header) : s.count = 0 := by
  obtain ⟨_, _, _, _, _, hnpix, _⟩ := h.headerZero (h.headerUnknown (.inl hp))
  have hle := h.countLe
  rw [hnpix] at hle
  exact BitVec.eq_of_toNat_eq (Nat.le_zero.1 hle)

/-- An accepted header (R39, R85). -/
theorem inv_latchHeader {s : State} (h : s.Inv) (hp : s.phase = .header)
    (hlen : Config.headerLen ≤ s.inLen.toNat) {m : Word32} (hmagic : m = Config.goodMagic)
    {c cs : Byte} (hc : c = 3 ∨ c = 4) (hcs : cs = 0 ∨ cs = 1) (w hgt : Word32) :
    (latchHeader m w hgt c cs s).Inv := by
  have hcount := h.count_eq_zero hp
  have hrun : s.run = 0 := h.runZero (by simp [hp])
  have herr : s.err = 0 := h.err_eq_zero (by simp [hp])
  have hremain : (latchHeader m w hgt c cs s).phase = .chunk →
      0 < (latchHeader m w hgt c cs s).npix.toNat := fun hchunk => by
    rcases latchHeader_done_or_chunk m w hgt c cs s with ⟨hdone, _⟩ | ⟨_, hne⟩
    · exact absurd (hdone.symm.trans hchunk) (by decide)
    · exact Nat.pos_of_ne_zero fun hz => hne (BitVec.eq_of_toNat_eq hz)
  exact { h with
    countLe := by simp [hcount]
    pixelsRemain := fun hchunk => by simpa [hcount] using hremain hchunk
    runFits := by simp [hrun]
    posInInput := fun _ => hlen
    posPastHeader := fun _ => le_rfl
    runZero := fun _ => hrun
    headerKnown := fun _ => rfl
    headerUnknown := fun hunknown => by
      rcases latchHeader_done_or_chunk m w hgt c cs s with ⟨hphase, _⟩ | ⟨hphase, _⟩ <;>
      · rw [hphase] at hunknown
        exact absurd hunknown (by decide)
    headerGood := fun _ => ⟨hmagic, hc, hcs, latchHeader_npix_toNat m w hgt c cs s⟩
    headerZero := by simp
    doneFull := fun hdone => by
      rcases latchHeader_done_or_chunk m w hgt c cs s with ⟨_, hz⟩ | ⟨hchunk, _⟩
      · exact hcount.trans hz.symm
      · exact absurd (hdone.symm.trans hchunk) (by decide)
    errCode := iff_of_false (latchHeader_phase_ne_error m w hgt c cs s) (not_not.2 herr) }

/-- A slot holds `(0,0,0,0)` or a pixel whose slot it is, after a write too (R39.6, R106). -/
theorem CacheWritten.cacheSlots {p : Pixel} {s t : State} (h : CacheWritten (pixelHash p) p s t)
    (hslots : ∀ i : Fin 64, s.cache[i] = Pixel.clear ∨ pixelHash s.cache[i] = i) (i : Fin 64) :
    t.cache[i] = Pixel.clear ∨ pixelHash t.cache[i] = i := by
  by_cases hi : i = pixelHash p
  · rw [hi, h.slot]
    exact .inr rfl
  · rw [h.others i hi]
    exact hslots i

/-- An emitted pixel (R39, R93). The run counter stays below the pixels that remain, so it is 0 when
the call ends. -/
theorem ChunkEmits.inv {len : Nat} {s t : State} (he : ChunkEmits len s t) (h : s.Inv)
    (hp : s.phase = .chunk) : t.Inv := by
  have hbusy : s.phase.busy = true := (busy_iff _).2 (.inr hp)
  have hremain := h.pixelsRemain hp
  have hcount := he.emitted.count_toNat hremain
  have hnpix := he.emitted.header.npix
  have hphase := he.emitted.done_or_chunk hp
  have hfits : t.count.toNat + t.run.toNat ≤ t.npix.toNat := by
    have hrun := he.run
    have hbefore := h.runFits hp
    rw [hcount, hnpix]
    omega
  have hvalid : t.hdrValid = true := he.emitted.header.hdrValid.trans (h.headerKnown (.inl hp))
  have herr : t.err = 0 := he.emitted.err.trans (h.err_eq_zero (by simp [hp]))
  exact {
    countLe := by omega
    pixelsRemain := fun hchunk => by
      rcases hphase with ⟨hdone, _⟩ | ⟨_, hne⟩
      · simp [hdone] at hchunk
      · have := mt BitVec.eq_of_toNat_eq hne
        omega
    runFits := fun _ => by omega
    posInInput := fun _ => he.pos_le_inLen (h.posInInput hbusy)
    posPastHeader := fun _ => by
      have := h.posPastHeader hp
      rw [he.pos_toNat]
      omega
    runZero := fun hnot => by
      rcases hphase with ⟨_, hlast⟩ | ⟨hchunk, _⟩
      · rw [hlast] at hfits
        exact BitVec.eq_of_toNat_eq (by simpa using hfits)
      · exact absurd hchunk hnot
    runMax := by
      have := h.runMax
      have := he.run
      omega
    headerKnown := fun _ => hvalid
    headerUnknown := fun hunknown => by
      rcases hphase with ⟨hphase, _⟩ | ⟨hphase, _⟩ <;> simp [hphase] at hunknown
    cacheSlots := by
      rcases he.cache with hsame | hwritten
      · rw [hsame]
        exact h.cacheSlots
      · exact hwritten.cacheSlots h.cacheSlots
    headerGood := fun _ => by
      rw [he.emitted.header.magic, he.emitted.header.channels, he.emitted.header.colorspace, hnpix,
        he.emitted.header.width, he.emitted.header.height]
      exact h.headerGood (h.headerKnown (.inl hp))
    headerZero := by simp [hvalid]
    outLength := by
      rw [he.emitted.out, List.length_append, h.outLength, hcount, List.length_singleton]
    doneFull := fun hdone => by
      rcases hphase with ⟨_, hlast⟩ | ⟨hchunk, _⟩
      · exact hlast
      · simp [hchunk] at hdone
    errCode := iff_of_false (he.emitted.phase_ne_error (by simp [hp])) (not_not.2 herr)
    errKnown := by simp [herr]
    inputForm := by
      rw [he.emitted.input.inBuf]
      exact h.inputForm }

theorem decoderStep_inv {pol : ZeroDimPolicy} {s t : State} (h : s.Inv)
    (hstep : decoderStep pol s = .next t) : t.Inv := by
  rcases decoderStep_cases hstep with ⟨hp, rfl⟩ | ⟨hp, hchunk⟩
  · rcases headerStep_cases pol s with ⟨e, _, he⟩ | ⟨haccept, he⟩
    · rw [he]
      exact inv_raiseError h (h.runZero (by simp [hp])) e
    · obtain ⟨hlen, hmagic, hc, hcs, _⟩ := headerError_none haccept
      rw [he]
      exact inv_latchHeader h hp hlen hmagic hc hcs _ _
  · rcases chunkStep_raises_or_chunkEmits hchunk with ⟨hr, e, rfl⟩ | ⟨len, hemits⟩
    · exact inv_raiseError h hr e
    · exact hemits.inv h hp

/-! ## Every step -/

theorem stepWith_inv {pol : ZeroDimPolicy} {s t : State} (h : s.Inv)
    (hstep : stepWith pol s = .next t) : t.Inv := by
  rcases stepWith_kinds hstep with hd | ⟨_, rfl⟩ | ⟨_, rfl⟩ | honly
  · exact decoderStep_inv (h.withMoves s.moves.tail) hd
  · exact inv_startCall (h.withMoves s.moves.tail)
  · exact inv_hardwareReset (h.withMoves s.moves.tail)
  · exact honly.inv h

/-- Settles O55, by a case for each kind of step. -/
theorem invKeptByEveryStep : Obligations.InvKeptByEveryStep := by
  unfold Obligations.InvKeptByEveryStep
  exact fun _ _ => stepWith_inv

theorem runSteps_inv {k : Nat} {s t : State} (h : s.Inv) (hrun : runSteps k s = .next t) :
    t.Inv := by
  induction k generalizing s with
  | zero => exact Host.Outcome.next.inj hrun ▸ h
  | succ k ih =>
    obtain ⟨u, hstep, hrest⟩ := runSteps_succ_inv hrun
    exact ih (stepWith_inv h hstep) hrest

/-- The invariant holds in every reachable state. -/
theorem Reachable.inv {s : State} (h : Reachable s) : s.Inv := by
  obtain ⟨moves, k, hrun⟩ := h
  exact runSteps_inv (invAtReset.withMoves moves) hrun

/-! ## `OUT` -/

/-- A decoder step leaves `OUT` and `COUNT` alone or appends one pixel and counts it (R93). -/
theorem decoderStep_out {pol : ZeroDimPolicy} {s t : State} (h : decoderStep pol s = .next t) :
    t.out = s.out ∧ t.count = s.count ∨ ∃ p, t.out = s.out ++ [p] ∧ t.count = s.count + 1 := by
  rcases decoderStep_cases h with ⟨_, rfl⟩ | ⟨_, hchunk⟩
  · rcases headerStep_cases pol s with ⟨e, _, he⟩ | ⟨_, he⟩ <;> rw [he] <;> exact .inl ⟨rfl, rfl⟩
  · rcases chunkStep_raises_or_chunkEmits hchunk with ⟨_, e, rfl⟩ | ⟨len, hemits⟩
    · exact .inl ⟨rfl, rfl⟩
    · exact .inr ⟨t.prev, hemits.emitted.out, hemits.emitted.count⟩

/-- Settles O11: the appended pixel is element `COUNT` because `OUT` is as long as `COUNT` says. -/
theorem outOnlyGrows : Obligations.OutOnlyGrows := by
  unfold Obligations.OutOnlyGrows
  intro s t hinv h hnostart hnoreset
  rcases stepWith_kinds h with hd | ⟨hstart, _⟩ | ⟨hreset, _⟩ | honly
  · refine (decoderStep_out hd).imp_right fun ⟨p, hout, hcount⟩ => ⟨p, hout, ?_, hcount⟩
    rw [hout, ← hinv.outLength, List.getElem?_concat_length]
  · exact absurd hstart hnostart
  · exact absurd hreset hnoreset
  · exact .inl ⟨honly.sameOutcome.out, honly.sameOutcome.count⟩

/-- Element `row * WIDTH + column` of an image's pixels (R46). -/
theorem pixel_index_lt {row column width height : Nat} (hr : row < height) (hc : column < width) :
    row * width + column < width * height := by
  calc row * width + column
    _ < row * width + width := by omega
    _ = (row + 1) * width := by ring
    _ ≤ height * width := Nat.mul_le_mul_right width hr
    _ = width * height := Nat.mul_comm height width

/-- Settles O57: in a reachable DONE, `OUT` is as long as `COUNT`, which is `NPIX`, the header's
product. -/
theorem doneMeansExactlyWidthTimesHeight : Obligations.DoneMeansExactlyWidthTimesHeight := by
  unfold Obligations.DoneMeansExactlyWidthTimesHeight
  intro s hreach hp
  have hinv := hreach.inv
  have hfull := hinv.doneFull hp
  obtain ⟨_, _, _, hnpix⟩ := hinv.headerGood (hinv.headerKnown (.inr hp))
  have hlength : s.out.length = s.width.toNat * s.height.toNat := by
    rw [hinv.outLength, hfull, hnpix]
  refine ⟨hlength, hfull, fun row column hr hc => ?_⟩
  have hindex : row * s.width.toNat + column < s.out.length := hlength ▸ pixel_index_lt hr hc
  rw [pixelAt, if_pos hc, List.getElem?_eq_getElem hindex, Option.isSome_some]

/-! ## `POS` and `IN_LEN` -/

/-- A decoder step keeps `POS` within `IN_LEN` (R39.3, R91). -/
theorem decoderStep_pos_le_inLen {pol : ZeroDimPolicy} {s t : State}
    (hpos : s.pos.toNat ≤ s.inLen.toNat) (h : decoderStep pol s = .next t) :
    t.pos.toNat ≤ t.inLen.toNat := by
  rcases decoderStep_cases h with ⟨_, rfl⟩ | ⟨_, hchunk⟩
  · rcases headerStep_cases pol s with ⟨e, _, he⟩ | ⟨haccept, he⟩
    · rw [he]
      exact hpos
    · obtain ⟨hlen, _⟩ := headerError_none haccept
      rw [he]
      exact hlen
  · rcases chunkStep_raises_or_chunkEmits hchunk with ⟨_, e, rfl⟩ | ⟨len, hemits⟩
    · exact hpos
    · exact hemits.pos_le_inLen hpos

/-- A step keeps `POS` within `IN_LEN`, or is a host write of a half of `IN_LEN` outside a call. -/
theorem stepWith_pos_le_inLen {pol : ZeroDimPolicy} {s t : State}
    (hpos : s.pos.toNat ≤ s.inLen.toNat) (h : stepWith pol s = .next t) :
    t.pos.toNat ≤ t.inLen.toNat ∨ s.phase.busy = false ∧
      ∃ n v later, (n = 2 ∨ n = 3) ∧ s.moves = .writeReg n v :: later := by
  rcases stepWith_kinds h with hd | ⟨_, rfl⟩ | ⟨_, rfl⟩ | ⟨len, buf, l, r, rfl, _, hlen⟩
  · exact .inl (decoderStep_pos_le_inLen (s := { s with moves := s.moves.tail }) hpos hd)
  · exact .inl (Nat.zero_le _)
  · exact .inl (Nat.zero_le _)
  · rcases hlen with rfl | hwrite
    · exact .inl hpos
    · exact .inr hwrite

/-- DONE on an image without pixels, 14 bytes long, as ACCEPT ends it (R83), and the host about to
write `IN_LEN_LO` for its next file (R136). -/
def emptyImageDone : State :=
  { State.reset with
    pos := 14
    phase := .done
    magic := Config.goodMagic
    channels := 3
    hdrValid := true
    inLen := 14
    moves := [.writeReg 2 0] }

theorem emptyImageDone_inv : emptyImageDone.Inv := by
  constructor <;> decide

/-- Settles O56: the kinds of step one by one, and the write of a shorter `IN_LEN` after DONE. -/
theorem posMayPassInLenAfterACall : Obligations.PosMayPassInLenAfterACall := by
  unfold Obligations.PosMayPassInLenAfterACall
  refine ⟨le_rfl, fun s t => stepWith_pos_le_inLen, ?_⟩
  obtain ⟨len, hstep, hlen⟩ :=
    step_writeLenLo_idle (s := emptyImageDone) (v := 0) (later := []) rfl rfl
  refine ⟨emptyImageDone, _, 0, [], emptyImageDone_inv, rfl, le_rfl, rfl, hstep,
    stepWith_inv emptyImageDone_inv hstep, ?_⟩
  show len.toNat < 14
  rw [hlen]
  decide

end Sys2Proof.Machine

/-! Whole calls (41_chunk_dispatch.md R97, 45_run_chunk.md R114 to R117): a run emits its pixels,
and a call ends within its bound. -/

namespace Sys2Proof.Machine

/-! ## A run and its continuations -/

/-- `k` run continuations (R115): `k` more pixels `PREV`, no input read, and the call DONE if they
were the last. -/
structure RunContinued (k : Nat) (s t : State) : Prop where
  out : t.out = s.out ++ List.replicate k s.prev
  count : t.count.toNat = s.count.toNat + k
  pos : t.pos = s.pos
  prev : t.prev = s.prev
  run : t.run = 0
  done : s.count.toNat + k = s.npix.toNat → t.phase = .done

/-- A run that is not being continued is over; in CHUNK a pixel still remains. -/
theorem runContinued_zero {s : State} (h : s.Inv) (hp : s.phase = .chunk ∨ s.phase = .done)
    (hr : s.run = 0) : RunContinued 0 s s where
  out := (List.append_nil s.out).symm
  count := rfl
  pos := rfl
  prev := rfl
  run := hr
  done := fun hlast => hp.resolve_left fun hchunk => by
    have := h.pixelsRemain hchunk
    omega

/-- One continuation before `k` others. -/
theorem RunContinued.cons {k : Nat} {s t : State} (h : RunContinued k (runContinue s) t)
    (hremain : s.count.toNat < s.npix.toNat) : RunContinued (k + 1) s t := by
  have hcount := (emitted_runContinue s).count_toNat hremain
  exact {
    out := by rw [h.out, runContinue_out, runContinue_prev, List.append_assoc,
      List.singleton_append, List.replicate_succ]
    count := by rw [h.count, hcount]; omega
    pos := h.pos
    prev := h.prev
    run := h.run
    done := fun hlast => h.done (by rw [hcount, runContinue_npix]; omega) }

/-- `RUN` counts the continuations still to come (R113, R115). -/
theorem runSteps_runContinue {k : Nat} {s : State} (h : s.Inv)
    (hp : s.phase = .chunk ∨ s.phase = .done) (hm : s.moves = []) (hk : s.run.toNat = k) :
    ∃ t, runSteps k s = .next t ∧ RunContinued k s t := by
  induction k generalizing s with
  | zero => exact ⟨s, rfl, runContinued_zero h hp (BitVec.eq_of_toNat_eq hk)⟩
  | succ k ih =>
    have hr : s.run ≠ 0 := fun hz => by simp [hz] at hk
    have hchunk : s.phase = .chunk := not_not.1 fun hne => hr (h.runZero hne)
    have hstep := step_runContinue hchunk hr hm
    have hphase := ((emitted_runContinue s).done_or_chunk hchunk).symm.imp And.left And.left
    have hrun : (runContinue s).run.toNat = k := by rw [runContinue_run_toNat hr, hk]; rfl
    obtain ⟨t, hrest, hcontinued⟩ := ih (stepWith_inv h hstep) hphase hm hrun
    exact ⟨t, (runSteps_succ hstep).trans hrest, hcontinued.cons (h.pixelsRemain hchunk)⟩

/-- Settles O46: the RUN chunk emits its first pixel and loads the counter with the rest. -/
theorem runEmitsExactlyNPixels : Obligations.RunEmitsExactlyNPixels := by
  unfold Obligations.RunEmitsExactlyNPixels
  intro s n hat hinv hlen h1 h62 hbyte hfits
  obtain ⟨m, rfl⟩ : ∃ m, n = m + 1 := ⟨n - 1, by omega⟩
  have hstep := (step_of_decode hat hlen (decode_memRead_run h1 h62 hbyte)).trans
    (exec_run_of_fits hfits)
  have hemits := chunkEmits_run h1 h62 hfits hlen
  have hcount := hemits.emitted.count_toNat (by omega)
  have hphase := (hemits.emitted.done_or_chunk hat.phase).symm.imp And.left And.left
  obtain ⟨t, hrest, hcontinued⟩ := runSteps_runContinue (stepWith_inv hinv hstep) hphase hat.moves
    (loadRun_run_toNat h62 s)
  refine ⟨t, (runSteps_succ hstep).trans hrest, ?_, ?_, ?_, hcontinued.run, hcontinued.prev,
    fun hlast => hcontinued.done ?_⟩
  · rw [hcontinued.out, finishChunk_out, loadRun_out, finishChunk_prev, List.append_assoc,
      List.singleton_append, Nat.add_sub_cancel, List.replicate_succ]
  · rw [hcontinued.count, hcount]
    omega
  · rw [hcontinued.pos, hemits.pos_toNat]
  · rw [hcount, finishChunk_npix, loadRun_npix]
    omega

/-! ## The bound of a call -/

/-- In CHUNK each step ends the call or leaves one pixel fewer (R97). -/
theorem chunk_ends_within {m : Nat} {s : State} (h : s.Inv) (hp : s.phase = .chunk)
    (hm : s.moves = []) (hremain : s.npix.toNat = s.count.toNat + m) :
    ∃ k t, runSteps k s = .next t ∧ t.ended ∧ k ≤ m ∧ t.npix = s.npix := by
  induction m generalizing s with
  | zero =>
    have := h.pixelsRemain hp
    omega
  | succ m ih =>
    obtain ⟨u, hu⟩ := chunkStep_answers_next s
    have hstep : step s = .next u := (step_chunk hp hm).trans hu
    rcases chunkStep_raises_or_chunkEmits hu with ⟨_, e, rfl⟩ | ⟨len, hemits⟩
    · exact ⟨1, _, runSteps_succ hstep, .inr (raiseError_phase e s), by omega, rfl⟩
    · have hnpix := hemits.emitted.header.npix
      rcases hemits.emitted.done_or_chunk hp with ⟨hdone, _⟩ | ⟨hchunk, _⟩
      · exact ⟨1, u, runSteps_succ hstep, .inl hdone, by omega, hnpix⟩
      · have hcount := hemits.emitted.count_toNat (h.pixelsRemain hp)
        have hmoves : u.moves = [] := hemits.emitted.host.moves.trans hm
        obtain ⟨k, t, hrest, hended, hk, ht⟩ :=
          ih (stepWith_inv h hstep) hchunk hmoves (by rw [hnpix, hcount]; omega)
        exact ⟨k + 1, t, (runSteps_succ hstep).trans hrest, hended, by omega, ht.trans hnpix⟩

/-- Settles O58: one step for the header, and one at most for each pixel of an accepted one. -/
theorem callEndsWithinItsBound : Obligations.CallEndsWithinItsBound := by
  unfold Obligations.CallEndsWithinItsBound
  intro s hinv hat
  have hstep := step_header hat
  have hafter := stepWith_inv hinv hstep
  rcases headerStep_cases Config.zeroDimPolicy s with ⟨e, _, he⟩ | ⟨_, he⟩
  · rw [he] at hstep
    exact ⟨1, _, runSteps_succ hstep, .inr (raiseError_phase e s), by omega⟩
  · rw [he] at hstep hafter
    rcases latchHeader_done_or_chunk (be32 s 0) (be32 s 4) (be32 s 8) (inByte s 12) (inByte s 13) s
      with ⟨hdone, _⟩ | ⟨hchunk, _⟩
    · exact ⟨1, _, runSteps_succ hstep, .inl hdone, by omega⟩
    · obtain ⟨k, t, hrest, hended, hk, hnpix⟩ :=
        chunk_ends_within hafter hchunk hat.moves (Nat.add_sub_of_le hafter.countLe).symm
      refine ⟨k + 1, t, (runSteps_succ hstep).trans hrest, hended, ?_⟩
      rw [hnpix]
      omega

end Sys2Proof.Machine

/-! What a call reads (20_memory.md R57, 41_chunk_dispatch.md R99): bytes below `IN_LEN`, and in a
call that runs to DONE only bytes below the final `POS`. -/

namespace Sys2Proof.Machine

/-! ## One step over another input -/

/-- A state with other bytes in `IN` and other replies had by the host, all else the same. -/
def withInput (buf : Memory) (r : List HostReply) (s : State) : State :=
  { s with inBuf := buf, replies := r }

/-- What `IN` and the host's replies hold is no part of a call's outcome. -/
theorem sameOutcome_withInput (buf : Memory) (r : List HostReply) (s : State) :
    SameOutcome s (withInput buf r s) :=
  ⟨rfl, rfl, ⟨rfl, rfl, rfl, rfl, rfl, rfl, rfl⟩, rfl, rfl, rfl⟩

/-- A fetch reads the chunk at `POS` and nothing at or past `IN_LEN` (R91). -/
theorem fetch_congr {s u : State} (hpos : u.pos = s.pos) (hlen : u.inLen = s.inLen)
    (h : ∀ a, s.pos.toNat ≤ a → a < s.inLen.toNat →
      a < s.pos.toNat + chunkLen (inByte s s.pos.toNat) → inByte u a = inByte s a) :
    fetch u = fetch s := by
  have hone := chunkLen_pos (inByte s s.pos.toNat)
  by_cases hend : s.inLen.toNat ≤ s.pos.toNat
  · rw [fetch_cut (.inl hend), fetch_cut (.inl (by rw [hpos, hlen]; exact hend))]
  · have htag : inByte u s.pos.toNat = inByte s s.pos.toNat := h _ le_rfl (by omega) (by omega)
    by_cases hcut : s.inLen.toNat < s.pos.toNat + chunkLen (inByte s s.pos.toNat)
    · rw [fetch_cut (.inr hcut), fetch_cut (.inr (by rw [hpos, hlen, htag]; exact hcut))]
    · obtain ⟨i, hfetch, hd⟩ := fetch_whole (not_lt.1 hcut)
      have hread := memRead_congr (s := s) (t := u) s.pos.toNat (chunkLen (inByte s s.pos.toNat))
        fun a hlo hhi => h a hlo (by omega) hhi
      rw [hfetch]
      refine fetch_of_decode (n := chunkLen (inByte s s.pos.toNat)) ?_ ?_
      · rw [hpos, hlen]
        exact not_lt.1 hcut
      · rw [hpos, hread]
        exact hd

/-- No chunk's own effect reads `IN`: its operands are already fetched (R92). -/
theorem exec_withInput (buf : Memory) (r : List HostReply) {i : Instr} {s t : State}
    (h : exec i s = .next t) : exec i (withInput buf r s) = .next (withInput buf r t) := by
  cases i with
  | rgb | rgba | index | diff | luma => rw [← Host.Outcome.next.inj h]; rfl
  | run n =>
    by_cases hfits : s.count.toNat + n ≤ s.npix.toNat
    · obtain rfl := Host.Outcome.next.inj ((exec_run_of_fits hfits).symm.trans h)
      exact exec_run_of_fits (s := withInput buf r s) hfits
    · obtain rfl := Host.Outcome.next.inj ((exec_run_of_exceeds (not_le.1 hfits)).symm.trans h)
      exact exec_run_of_exceeds (s := withInput buf r s) (not_le.1 hfits)

/-- A chunk step that raises no error moves `POS` past all the bytes it has read. -/
theorem chunkStep_read_le_pos {s t : State} (h : chunkStep s = .next t) (hr : s.run = 0)
    (hne : t.phase ≠ .error) :
    s.pos.toNat + chunkLen (inByte s s.pos.toNat) ≤ t.pos.toNat := by
  rcases chunkStep_cases h with ⟨hrun, _⟩ | ⟨_, _, rfl⟩ | ⟨_, i, hfetch, hexec⟩
  · exact absurd hr hrun
  · exact absurd (raiseError_phase _ s) hne
  · obtain ⟨hwf, hlength, hbytes⟩ := fetch_ok hfetch
    rcases exec_overruns_or_chunkEmits hexec hwf hr hbytes with rfl | hemits
    · exact absurd (raiseError_phase _ s) hne
    · rw [hemits.pos_toNat, hlength]

/-- The two inputs agree on all that a step from `s` to `t` can have read: every byte below
`IN_LEN`, and below `t`'s `POS` when it raised no error. -/
def AgreeOnRead (buf : Memory) (r : List HostReply) (s t : State) : Prop :=
  ∀ a, a < s.inLen.toNat → (t.phase ≠ .error → a < t.pos.toNat) →
    inByte (withInput buf r s) a = inByte s a

theorem chunkStep_withInput {buf : Memory} {r : List HostReply} {s t : State}
    (h : chunkStep s = .next t) (hagree : AgreeOnRead buf r s t) :
    chunkStep (withInput buf r s) = .next (withInput buf r t) := by
  by_cases hr : s.run = 0
  · have hfetch : fetch (withInput buf r s) = fetch s :=
      fetch_congr rfl rfl fun a _ hin hlt => hagree a hin fun hne =>
        hlt.trans_le (chunkStep_read_le_pos h hr hne)
    have hnot : ¬ (withInput buf r s).run ≠ 0 := not_not.2 hr
    rcases chunkStep_cases h with ⟨hrun, _⟩ | ⟨_, hcut, rfl⟩ | ⟨_, i, hok, hexec⟩
    · exact absurd hr hrun
    · rw [chunkStep, if_neg hnot, hfetch, hcut]
      rfl
    · have hstep := chunkStep_of_fetch (s := withInput buf r s) hr (hfetch.trans hok)
      exact hstep.trans (exec_withInput buf r hexec)
  · have ht : chunkStep s = .next (runContinue s) := if_pos hr
    obtain rfl := Host.Outcome.next.inj (ht.symm.trans h)
    exact if_pos hr

/-- A header parse reads nothing at or past `IN_LEN` (R78). -/
theorem headerError_congr_below {pol : ZeroDimPolicy} {s u : State} (hlen : u.inLen = s.inLen)
    (h : ∀ a, a < s.inLen.toNat → a < Config.headerLen → inByte u a = inByte s a) :
    headerError pol u = headerError pol s := by
  by_cases hshort : s.inLen.toNat < Config.headerLen
  · rw [headerError_truncated pol hshort, headerError_truncated pol (hlen ▸ hshort)]
  · exact headerError_congr pol ⟨hlen, fun a ha => h a (by omega) ha⟩

theorem headerStep_withInput {pol : ZeroDimPolicy} {buf : Memory} {r : List HostReply} {s : State}
    (hagree : AgreeOnRead buf r s (headerStep pol s)) :
    headerStep pol (withInput buf r s) = withInput buf r (headerStep pol s) := by
  rcases headerStep_cases pol s with ⟨e, herror, he⟩ | ⟨haccept, he⟩ <;> rw [he] at hagree ⊢
  · have hsame : headerError pol (withInput buf r s) = headerError pol s :=
      headerError_congr_below rfl fun a hin _ => hagree a hin fun hne =>
        absurd (raiseError_phase e s) hne
    rw [headerStep_of_error (hsame.trans herror)]
    rfl
  · obtain ⟨hlen, _⟩ := headerError_none haccept
    have hbytes : SameHeaderBytes s (withInput buf r s) :=
      ⟨rfl, fun a ha => hagree a (by omega) fun _ => ha⟩
    rw [headerStep_congr hbytes haccept]
    rfl

/-- A decoder step does the same over an input that agrees on all it reads (R57, R99). -/
theorem decoderStep_withInput {pol : ZeroDimPolicy} {buf : Memory} {r : List HostReply}
    {s t : State} (h : decoderStep pol s = .next t) (hagree : AgreeOnRead buf r s t) :
    decoderStep pol (withInput buf r s) = .next (withInput buf r t) := by
  rcases decoderStep_cases h with ⟨hp, rfl⟩ | ⟨hp, hchunk⟩
  · have hp' : (withInput buf r s).phase = .header := hp
    rw [decoderStep, hp', headerStep_withInput hagree]
  · have hp' : (withInput buf r s).phase = .chunk := hp
    rw [decoderStep_chunk pol hp', chunkStep_withInput hchunk hagree]

/-! ## A run over another input -/

/-- With no move of the host, a run from outside a call goes nowhere (R89). -/
theorem runSteps_idle {k : Nat} {s t : State} (hm : s.moves = []) (hidle : s.phase.busy = false)
    (h : runSteps k s = .next t) : t = s := by
  cases k with
  | zero => exact (Host.Outcome.next.inj h).symm
  | succ k =>
    obtain ⟨u, hstep, _⟩ := runSteps_succ_inv h
    rw [step_nil hm, decoderStep_stops _ hidle] at hstep
    cases hstep

/-- The header is parsed once in a call (R77, R85). -/
theorem decoderStep_phase_ne_header {pol : ZeroDimPolicy} {s t : State}
    (h : decoderStep pol s = .next t) : t.phase ≠ .header := by
  rcases decoderStep_cases h with ⟨_, rfl⟩ | ⟨hp, hchunk⟩
  · rcases headerStep_cases pol s with ⟨e, _, he⟩ | ⟨_, he⟩ <;> rw [he]
    · simp
    · rcases latchHeader_done_or_chunk (be32 s 0) (be32 s 4) (be32 s 8) (inByte s 12)
        (inByte s 13) s with ⟨hphase, _⟩ | ⟨hphase, _⟩ <;> rw [hphase] <;> decide
  · rcases chunkStep_raises_or_chunkEmits hchunk with ⟨_, e, rfl⟩ | ⟨len, hemits⟩
    · simp
    · rcases hemits.emitted.done_or_chunk hp with ⟨hphase, _⟩ | ⟨hphase, _⟩ <;> simp [hphase]

/-- Past the header `POS` only grows. -/
theorem decoderStep_pos_le {pol : ZeroDimPolicy} {s t : State} (hp : s.phase ≠ .header)
    (h : decoderStep pol s = .next t) : s.pos.toNat ≤ t.pos.toNat := by
  rcases decoderStep_cases h with ⟨hheader, _⟩ | ⟨_, hchunk⟩
  · exact absurd hheader hp
  · rcases chunkStep_raises_or_chunkEmits hchunk with ⟨_, e, rfl⟩ | ⟨len, hemits⟩
    · exact le_rfl
    · rw [hemits.pos_toNat]
      omega

theorem runSteps_pos_le {k : Nat} {s t : State} (hm : s.moves = []) (hp : s.phase ≠ .header)
    (h : runSteps k s = .next t) : s.pos.toNat ≤ t.pos.toNat := by
  induction k generalizing s with
  | zero => exact Host.Outcome.next.inj h ▸ le_rfl
  | succ k ih =>
    obtain ⟨u, hstep, hrest⟩ := runSteps_succ_inv h
    rw [step_nil hm] at hstep
    obtain ⟨_, _, hmoves, _⟩ := decoderStep_frame hstep
    exact (decoderStep_pos_le hp hstep).trans
      (ih (hmoves.trans hm) (decoderStep_phase_ne_header hstep) hrest)

/-- A run does the same over an input that agrees with its own below `IN_LEN`, and below the final
`POS` if the run ends in DONE (R57, R99). -/
theorem runSteps_withInput {buf : Memory} {r : List HostReply} {k : Nat} {s t : State}
    (hm : s.moves = []) (h : runSteps k s = .next t)
    (hbytes : ∀ a, a < s.inLen.toNat → (t.phase = .done → a < t.pos.toNat) →
      inByte (withInput buf r s) a = inByte s a) :
    runSteps k (withInput buf r s) = .next (withInput buf r t) := by
  induction k generalizing s with
  | zero => rw [← Host.Outcome.next.inj h, runSteps_zero]
  | succ k ih =>
    obtain ⟨u, hstep, hrest⟩ := runSteps_succ_inv h
    rw [step_nil hm] at hstep
    obtain ⟨hlen, hbuf, hsame, _⟩ := decoderStep_frame hstep
    have hmoves : u.moves = [] := hsame.trans hm
    have hagree : AgreeOnRead buf r s u := fun a hin hread => hbytes a hin fun hdone => by
      have hne : u.phase ≠ .error := fun herror => by
        have ht := runSteps_idle hmoves (by rw [herror]; rfl) hrest
        exact absurd (herror.symm.trans ((congrArg _ ht.symm).trans hdone)) (by decide)
      exact (hread hne).trans_le (runSteps_pos_le hmoves (decoderStep_phase_ne_header hstep) hrest)
    have hfirst : step (withInput buf r s) = .next (withInput buf r u) :=
      (step_nil (s := withInput buf r s) hm).trans (decoderStep_withInput hstep hagree)
    refine (runSteps_succ hfirst).trans (ih hmoves hrest fun a hin hread => ?_)
    rw [inByte_congr hbuf]
    exact hbytes a (hlen ▸ hin) hread

/-- Settles O60: below the final `POS` the inputs agree, and the run reads nothing else. -/
theorem trailingBytesAreNeverRead : Obligations.TrailingBytesAreNeverRead := by
  unfold Obligations.TrailingBytesAreNeverRead
  intro s u t k _ hm hrun hdone hu hbytes
  obtain ⟨buf, rfl⟩ : ∃ buf, u = withInput buf s.replies s := ⟨u.inBuf, hu⟩
  exact ⟨_, runSteps_withInput hm hrun fun a _ hread => hbytes a (hread hdone),
    sameOutcome_withInput buf s.replies t⟩

/-- The first step of a call (R134). -/
theorem step_start {s : State} {v : Word32} (hb : s.phase.busy = false) (hv : v.getLsbD 0 = true)
    (hm : s.moves = [.writeReg 0 v]) : step s = .next (startCall { s with moves := [] }) :=
  (step_writeReg hm).trans (congrArg _ (writeRegister_start (s := { s with moves := [] }) hv hb))

/-- After START two states with the same `IN_LEN` differ in `IN` and the replies only (R134). -/
theorem startCall_eq_withInput {s u : State} (h : u.inLen = s.inLen) :
    startCall { u with moves := [] } =
      withInput u.inBuf u.replies (startCall { s with moves := [] }) := by
  simp only [startCall, withInput, h]

/-- Settles O59: START forgets the history, and then the two calls read the same bytes. -/
theorem sameFileSameOutcome : Obligations.SameFileSameOutcome := by
  unfold Obligations.SameFileSameOutcome
  intro s u v w hs hu hv hw hms hmu hfile k t hrun
  rw [runSteps_succ (step_start hs hv hms)] at hrun
  rw [runSteps_succ (step_start hu hw hmu), startCall_eq_withInput hfile.inLen]
  exact ⟨_, runSteps_withInput rfl hrun fun a hin _ => hfile.bytes a hin,
    sameOutcome_withInput _ _ t⟩

end Sys2Proof.Machine
